-- ==== Sys2Proof/Word.lean ====
section
/-! DEFINITION. The word types of the engine and the bits of a byte (00_scope.md R7, R10). -/

namespace Sys2Proof

/-- A byte of the buffer: 8 bits (R10). -/
abbrev Byte := BitVec 8

/-- A command word, `CMD_W` = 80 bits (R7, R60). -/
abbrev CmdWord := BitVec 80

/-- A response word, `RESP_W` = 24 bits (R7, R63). -/
abbrev RespWord := BitVec 24

/-- A dimension or a coordinate, `DIM_W` = 16 bits (R7). -/
abbrev Dim := BitVec 16

/-- A value field or response data, `VAL_W` = 16 bits (R7). -/
abbrev Value := BitVec 16

/-- A slot index, `SLOT_W` = 48 bits (R7). -/
abbrev SlotIndex := BitVec 48

end Sys2Proof
end

