-- ==== Sys2Proof/Syntax.lean ====
section
/-! DEFINITION. The seven commands of 30_encoding.md R64, one constructor per row of the opcode table. -/

namespace Sys2Proof

/-- A decoded command. Every field of the word is kept, the must-be-zero ones too: a word with a valid
opcode and a non-zero unused field "decodes as that command and then faults RESERVED_FIELD" (R64), and
fault entry records the whole word (60_exceptions.md R142). DEDUCED, log entry 11, safe. -/
inductive Instr where
  /-- PACK (R81): width `W`, slot `{A, B, C}`, value `V`. -/
  | pack (w : BitVec 8) (slot : SlotIndex) (v : Value)
  /-- UNPACK (R83): width `W`, slot `{A, B, C}`; `V` must be zero. -/
  | unpack (w : BitVec 8) (slot : SlotIndex) (v : Value)
  /-- SET (R91): x = `A`, y = `B`, z = `C`, value `V`; `W` must be zero. -/
  | set (w : BitVec 8) (x y z : Dim) (v : Value)
  /-- GET (R93): x = `A`, y = `B`, z = `C`; `W` and `V` must be zero. -/
  | get (w : BitVec 8) (x y z : Dim) (v : Value)
  /-- SIZEX (R101): every field but `OP` must be zero. -/
  | sizex (w : BitVec 8) (a b c : BitVec 16) (v : Value)
  /-- SIZEY (R102): every field but `OP` must be zero. -/
  | sizey (w : BitVec 8) (a b c : BitVec 16) (v : Value)
  /-- SIZEZ (R103): every field but `OP` must be zero. -/
  | sizez (w : BitVec 8) (a b c : BitVec 16) (v : Value)
  deriving DecidableEq, Repr

end Sys2Proof
end

