-- ==== Sys2Proof/WellFormed.lean ====
section
/-! DEFINITION. Well-formed commands: the must-be-zero fields of 30_encoding.md R62 are zero. A command that is
not well formed still decodes and runs: it raises RESERVED_FIELD (R64). -/

namespace Sys2Proof

/-- The must-be-zero fields of the command, by the table of R62, are all zero. -/
def Instr.wellFormed : Instr → Bool
  | .pack _ _ _ => true
  | .unpack _ _ v => v == 0#16
  | .set w _ _ _ _ => w == 0#8
  | .get w _ _ _ v => w == 0#8 && v == 0#16
  | .sizex w a b c v => w == 0#8 && a == 0#16 && b == 0#16 && c == 0#16 && v == 0#16
  | .sizey w a b c v => w == 0#8 && a == 0#16 && b == 0#16 && c == 0#16 && v == 0#16
  | .sizez w a b c v => w == 0#8 && a == 0#16 && b == 0#16 && c == 0#16 && v == 0#16

end Sys2Proof
end

