-- ==== Sys2Proof/Decode.lean ====
section
/-! DEFINITION. The decoder, total on every 80-bit word and rejecting by name (30_encoding.md R60, R64, R65);
the encoder (R60, R68); and the assembler of the written form (R67, R68). -/

namespace Sys2Proof

/-- `OP`, bits 79:72 (R60). -/
def fieldOp (c : CmdWord) : BitVec 8 := c.extractLsb' 72 8

/-- `W`, bits 71:64 (R60). -/
def fieldW (c : CmdWord) : BitVec 8 := c.extractLsb' 64 8

/-- `A`, bits 63:48 (R60). -/
def fieldA (c : CmdWord) : BitVec 16 := c.extractLsb' 48 16

/-- `B`, bits 47:32 (R60). -/
def fieldB (c : CmdWord) : BitVec 16 := c.extractLsb' 32 16

/-- `C`, bits 31:16 (R60). -/
def fieldC (c : CmdWord) : BitVec 16 := c.extractLsb' 16 16

/-- `V`, bits 15:0 (R60). -/
def fieldV (c : CmdWord) : BitVec 16 := c.extractLsb' 0 16

/-- `SLOT = {A, B, C}` (R61). -/
def slotIndex (a b c : BitVec 16) : SlotIndex := a ++ b ++ c

/-- Why a word is no command. -/
inductive DecodeError where
  /-- `OP` is 0x00 or 0x08 to 0xFF (R64); the engine raises ILLEGAL_OPCODE for it. -/
  | illegalOpcode (op : BitVec 8)
  deriving DecidableEq, Repr

/-- What the decoder answers for a word: one of the seven commands, or the verdict "illegal" (R65). -/
inductive Decoded where
  /-- The word is this command. -/
  | command (i : Instr)
  /-- The word is no command, for this reason. -/
  | illegal (e : DecodeError)
  deriving DecidableEq, Repr

/-- The opcode map of R64: decoding is by `OP` alone. -/
def decode (c : CmdWord) : Decoded :=
  match (fieldOp c).toNat with
  | 1 => .command (.pack (fieldW c) (slotIndex (fieldA c) (fieldB c) (fieldC c)) (fieldV c))
  | 2 => .command (.unpack (fieldW c) (slotIndex (fieldA c) (fieldB c) (fieldC c)) (fieldV c))
  | 3 => .command (.set (fieldW c) (fieldA c) (fieldB c) (fieldC c) (fieldV c))
  | 4 => .command (.get (fieldW c) (fieldA c) (fieldB c) (fieldC c) (fieldV c))
  | 5 => .command (.sizex (fieldW c) (fieldA c) (fieldB c) (fieldC c) (fieldV c))
  | 6 => .command (.sizey (fieldW c) (fieldA c) (fieldB c) (fieldC c) (fieldV c))
  | 7 => .command (.sizez (fieldW c) (fieldA c) (fieldB c) (fieldC c) (fieldV c))
  | _ => .illegal (.illegalOpcode (fieldOp c))

/-- The format `C` of R60, from its fields. -/
def formatC (op w : BitVec 8) (a b c v : BitVec 16) : CmdWord := op ++ w ++ a ++ b ++ c ++ v

/-- The format `C` with the slot index in `A`, `B`, `C` as R68 writes it. -/
def formatSlot (op w : BitVec 8) (slot : SlotIndex) (v : BitVec 16) : CmdWord :=
  formatC op w (slot.extractLsb' 32 16) (slot.extractLsb' 16 16) (slot.extractLsb' 0 16) v

/-- The command's opcode (R64). -/
def opcode : Instr → BitVec 8
  | .pack _ _ _ => 0x01#8
  | .unpack _ _ _ => 0x02#8
  | .set _ _ _ _ _ => 0x03#8
  | .get _ _ _ _ _ => 0x04#8
  | .sizex _ _ _ _ _ => 0x05#8
  | .sizey _ _ _ _ _ => 0x06#8
  | .sizez _ _ _ _ _ => 0x07#8

/-- The command word of a command (R60, R68). -/
def encode : Instr → CmdWord
  | .pack w slot v => formatSlot 0x01#8 w slot v
  | .unpack w slot v => formatSlot 0x02#8 w slot v
  | .set w x y z v => formatC 0x03#8 w x y z v
  | .get w x y z v => formatC 0x04#8 w x y z v
  | .sizex w a b c v => formatC 0x05#8 w a b c v
  | .sizey w a b c v => formatC 0x06#8 w a b c v
  | .sizez w a b c v => formatC 0x07#8 w a b c v

/-- A command as written in the assembler-like syntax of R67, its operands any natural numbers. -/
inductive Written where
  /-- `PACK w, slot, value`. -/
  | pack (w slot value : Nat)
  /-- `UNPACK w, slot`. -/
  | unpack (w slot : Nat)
  /-- `SET x, y, z, value`. -/
  | set (x y z value : Nat)
  /-- `GET x, y, z`. -/
  | get (x y z : Nat)
  /-- `SIZEX`. -/
  | sizex
  /-- `SIZEY`. -/
  | sizey
  /-- `SIZEZ`. -/
  | sizez
  deriving DecidableEq, Repr

/-- Every operand fits its field (R68). -/
def Written.fits : Written → Bool
  | .pack w slot value => w < 256 && slot < 2 ^ 48 && value < 65536
  | .unpack w slot => w < 256 && slot < 2 ^ 48
  | .set x y z value => x < 65536 && y < 65536 && z < 65536 && value < 65536
  | .get x y z => x < 65536 && y < 65536 && z < 65536
  | .sizex | .sizey | .sizez => true

/-- The command a written line stands for, its operands cut to their fields. -/
def Written.toInstr : Written → Instr
  | .pack w slot value => .pack (BitVec.ofNat 8 w) (BitVec.ofNat 48 slot) (BitVec.ofNat 16 value)
  | .unpack w slot => .unpack (BitVec.ofNat 8 w) (BitVec.ofNat 48 slot) 0#16
  | .set x y z value =>
    .set 0#8 (BitVec.ofNat 16 x) (BitVec.ofNat 16 y) (BitVec.ofNat 16 z) (BitVec.ofNat 16 value)
  | .get x y z => .get 0#8 (BitVec.ofNat 16 x) (BitVec.ofNat 16 y) (BitVec.ofNat 16 z) 0#16
  | .sizex => .sizex 0#8 0#16 0#16 0#16 0#16
  | .sizey => .sizey 0#8 0#16 0#16 0#16 0#16
  | .sizez => .sizez 0#8 0#16 0#16 0#16 0#16

/-- The assembler of R68: the word of a written command, and nothing for an operand that does not fit its
field. -/
def assemble (line : Written) : Option CmdWord :=
  if line.fits then some (encode line.toInstr) else none

/-- The command the decoder reads from a word given as the opcode table numbers its bits: one 80-bit word,
bit 0 the least significant (R60). Bits at `nbits` and above are 0; a word longer than 80 bits is none of
this engine's. DEDUCED, log entry 12, safe. -/
def decodeTableWord (nbits w : Nat) : Option Instr :=
  if nbits ≤ 80 then
    match decode (BitVec.ofNat 80 (w % 2 ^ nbits)) with
    | .command i => some i
    | .illegal _ => none
  else none

end Sys2Proof
end

