-- ==== Sys2Proof/Config.lean ====
section
/-! DEFINITION. What one engine is built or set up with: the values `State.reset` takes where the spec has
inputs or an open parameter, and what a buffer byte that no cell lists reads as. -/

namespace Sys2Proof

/-- The capacity that limits nothing: 2 * 65535 ^ 3, the largest packed size any straps give
(00_scope.md R7). DESIGN CHOICE, log entry 3: `State.reset` takes it for the open parameter `CAP_BYTES`;
`State.capBytes` may hold any other value. -/
def Config.capBytesNoLimit : Nat := 562924184010750

/-- The strap `cfg_size_x` of `State.reset`. DESIGN CHOICE, log entry 4, unsafe. -/
def Config.resetSizeX : Dim := 16#16

/-- The strap `cfg_size_y` of `State.reset`. DESIGN CHOICE, log entry 4, unsafe. -/
def Config.resetSizeY : Dim := 256#16

/-- The strap `cfg_size_z` of `State.reset`. DESIGN CHOICE, log entry 4, unsafe. -/
def Config.resetSizeZ : Dim := 16#16

/-- The strap `cfg_bits` of `State.reset`. DESIGN CHOICE, log entry 4, unsafe. -/
def Config.resetBits : BitVec 8 := 8#8

/-- What a byte of the buffer that no cell lists reads as: the byte every address holds after reset
(10_state.md R24, 70_reset_and_hazards.md R171). DEDUCED, log entry 5, safe. -/
abbrev Config.unlistedByte : Byte := 0x00#8

end Sys2Proof
end

