-- ==== Sys2Proof/Machine/State.lean ====
section
/-! DEFINITION. The state of the engine (10_state.md R20), what its environment holds for it, the reasons a step
can stop, and the state after reset. Plain data throughout. -/

namespace Sys2Proof.Machine

/-- The buffer `BUF` (R24): `len` bytes, of which `cells` lists those that are not 0x00, addresses strictly
rising. -/
structure Memory where
  /-- The length L of the buffer; 0 after a configuration fault (R24). -/
  len : Nat
  /-- The listed bytes, in canonical form (`Memory.wf`). -/
  cells : List Host.Cell
  deriving DecidableEq, Repr

/-- The canonical form: addresses strictly rise, every listed address is below the length (20_memory.md R42), and
no listed byte is what an unlisted address reads as. -/
abbrev Memory.wf (m : Memory) : Prop :=
  m.cells.Pairwise (fun p q => p.1 < q.1) ∧
    ∀ p ∈ m.cells, p.1 < m.len ∧ p.2 ≠ Config.unlistedByte

/-- The values that `FAULT.CAUSE` can hold (60_exceptions.md R141); the codes are `Cause.code`. The codes that
are never produced have no constructor, as 93_implementation_defined.md U10 asks. DEDUCED, log entry 10, safe. -/
inductive Cause where
  /-- 0x00: no fault has occurred in this instance. -/
  | noFault
  /-- 0x01. -/
  | illegalOpcode
  /-- 0x02. -/
  | reservedField
  /-- 0x03. -/
  | widthMismatch
  /-- 0x05. -/
  | slotRange
  /-- 0x06. -/
  | coordRange
  /-- 0x07. -/
  | valueRange
  /-- 0x10, from reset. -/
  | cfgInvalid
  /-- 0x11, from reset. -/
  | cfgCapacity
  deriving DecidableEq, Repr

/-- The four straps, sampled at reset only (R30, R171). -/
structure Straps where
  /-- `cfg_size_x`. -/
  sizeX : Dim
  /-- `cfg_size_y`. -/
  sizeY : Dim
  /-- `cfg_size_z`. -/
  sizeZ : Dim
  /-- `cfg_bits`. -/
  bits : BitVec 8
  deriving DecidableEq, Repr

/-- One input of the host (R30): a command word on `cmd`, or a reset with its straps. -/
inductive HostEvent where
  /-- The host presents this word. -/
  | command (word : CmdWord)
  /-- The host applies reset with these straps (70_reset_and_hazards.md R170). -/
  | reset (straps : Straps)
  deriving DecidableEq, Repr

/-- The reasons the MODEL stops. None is a fault of the engine: those are next states (60_exceptions.md R147). No
state that `Safety.Inv` admits reaches one. -/
inductive Fault where
  /-- Raised by `Memory.read` and `Memory.write`: the byte address is at or above the buffer's length and does
  not exist (20_memory.md R42). Safe. -/
  | noSuchByte (address : Nat)
  /-- Raised by `codecRead` and `codecWrite`: `BITS` is not 4, 8 or 16 in an engine that is not halted, which the
  spec gives no meaning (R23). Safe. -/
  | noSuchWidth (bits : BitVec 8)
  deriving DecidableEq, Repr

/-- The reasons the model refuses a command. -/
inductive Refusal where
  /-- Raised by an arm of `exec` for an instruction that has no meaning yet; no arm does so. Safe. -/
  | notModelled (mnemonic : String)
  deriving DecidableEq, Repr

/-- The state: the engine's seven pieces of R20, then what the model holds of the engine's surroundings. -/
structure State where
  /-- `SIZEX` (R21). -/
  sizeX : Dim
  /-- `SIZEY` (R21). -/
  sizeY : Dim
  /-- `SIZEZ` (R21). -/
  sizeZ : Dim
  /-- `BITS` (R23). -/
  bits : BitVec 8
  /-- `BUF` (R24). -/
  buf : Memory
  /-- `FAULT.CAUSE` (R25). -/
  faultCause : Cause
  /-- `FAULT.INFO` (R25). -/
  faultInfo : CmdWord
  /-- The parameter `CAP_BYTES` of this engine (00_scope.md R7), written by no step. The model's own field, log
  entry 3. -/
  capBytes : Nat
  /-- The host's inputs not yet taken, the next one first (R28, R30). The model's own field, log entry 1. -/
  pending : List HostEvent
  /-- The words sent on `resp`, in command order (R30). The model's own field, log entry 2. -/
  responses : List RespWord
  deriving DecidableEq, Repr

/-- The engine right after a reset with the straps of Config (70_reset_and_hazards.md R171, R172), nothing
presented and nothing answered. The law `State.reset_eq_applyReset` says that the reset step gives this. -/
def State.reset : State where
  sizeX := Config.resetSizeX
  sizeY := Config.resetSizeY
  sizeZ := Config.resetSizeZ
  bits := Config.resetBits
  buf := { len := 65536, cells := [] }
  faultCause := .noFault
  faultInfo := 0#80
  capBytes := Config.capBytesNoLimit
  pending := []
  responses := []

end Sys2Proof.Machine
end

