-- ==== Sys2Proof/Machine/Flags.lean ====
section
/-! DEFINITION. The engine has no condition flags (10_state.md R29). What stands in their place: the codes of
`FAULT.CAUSE` and of a response's STATUS (60_exceptions.md R141), the predicate halted (R26), `fault_out` (R150)
and the status output (R30). -/

namespace Sys2Proof.Machine

/-- The 8-bit code of a cause (R141). -/
def Cause.code : Cause → BitVec 8
  | .noFault => 0x00#8
  | .illegalOpcode => 0x01#8
  | .reservedField => 0x02#8
  | .widthMismatch => 0x03#8
  | .slotRange => 0x05#8
  | .coordRange => 0x06#8
  | .valueRange => 0x07#8
  | .cfgInvalid => 0x10#8
  | .cfgCapacity => 0x11#8

/-- STATUS of a command that executed (R63). -/
abbrev statusOk : BitVec 8 := 0x00#8

/-- STATUS of a command that arrived while the engine was halted (R63, R148). -/
abbrev statusHalted : BitVec 8 := 0xFF#8

/-- The response word `{STATUS, DATA}`, STATUS in bits 23:16 (R63). -/
def responseWord (status : BitVec 8) (data : Value) : RespWord := status ++ data

/-- `FAULT.CAUSE` as the 8-bit register that the host reads (R25, R30). -/
def State.causeCode (s : State) : BitVec 8 := s.faultCause.code

/-- The predicate halted: `FAULT.CAUSE` is not 0x00 (R26). -/
def State.halted (s : State) : Bool := s.causeCode != 0x00#8

/-- The output `fault_out`: 1 exactly when halted (R30, R150). -/
def State.faultOut (s : State) : BitVec 1 := if s.halted then 1#1 else 0#1

/-- The output `status` (R30), the six fields the host reads at any time. The spec gives their widths and no
place of one field beside another, so they are a record. DESIGN CHOICE, log entry 13, safe. -/
structure StatusOutput where
  /-- `FAULT.CAUSE`. -/
  cause : BitVec 8
  /-- `FAULT.INFO`. -/
  info : BitVec 80
  /-- `SIZEX`. -/
  sizeX : BitVec 16
  /-- `SIZEY`. -/
  sizeY : BitVec 16
  /-- `SIZEZ`. -/
  sizeZ : BitVec 16
  /-- `BITS`. -/
  bits : BitVec 8
  deriving DecidableEq, Repr

/-- What the status output shows in a state (R30). -/
def State.statusOutput (s : State) : StatusOutput :=
  { cause := s.causeCode, info := s.faultInfo
    sizeX := s.sizeX, sizeY := s.sizeY, sizeZ := s.sizeZ, bits := s.bits }

end Sys2Proof.Machine
end

