-- ==== Sys2Proof/Machine/Operands.lean ====
section
/-! DEFINITION. What a command's operands mean: the slot count and the packed length (00_scope.md R8), the slot of
a coordinate and its inverse (20_memory.md R43, R44), the range checks (30_encoding.md R66), and whether straps are
acceptable (70_reset_and_hazards.md R171). All arithmetic is on natural numbers (R8, R9). -/

namespace Sys2Proof.Machine

/-- The number of slots of a chunk: N of R8. -/
def voxelCount (sizeX sizeY sizeZ : Dim) : Nat := sizeX.toNat * sizeY.toNat * sizeZ.toNat

/-- The number of bytes that `n` slots of `bits` bits take: L of R8. -/
def packedBytes (n : Nat) (bits : BitVec 8) : Nat := (n * bits.toNat + 7) / 8

/-- N, from the configuration registers (R8). -/
def State.slotCount (s : State) : Nat := voxelCount s.sizeX s.sizeY s.sizeZ

/-- L, from the configuration registers (R8). -/
def State.bufferLength (s : State) : Nat := packedBytes s.slotCount s.bits

/-- `slot_of(x, y, z)` with its dimensions written out (R13, R43). -/
def slotOf (sizeX sizeZ : Nat) (x y z : Nat) : Nat := (y * sizeZ + z) * sizeX + x

/-- The coordinate (x, y, z) of a slot: the inverse of `slotOf` (R44). -/
def coordOf (sizeX sizeZ : Nat) (slot : Nat) : Nat × Nat × Nat :=
  (slot % sizeX, slot / (sizeX * sizeZ), slot / sizeX % sizeZ)

/-- The slot that a coordinate operand names in this state (R43). -/
def State.voxelSlot (s : State) (x y z : Dim) : Nat :=
  slotOf s.sizeX.toNat s.sizeZ.toNat x.toNat y.toNat z.toNat

/-- The SLOT_RANGE test of PACK and UNPACK (R66 step 5). -/
def State.slotOutOfRange (s : State) (slot : SlotIndex) : Bool := s.slotCount ≤ slot.toNat

/-- The COORD_RANGE test of SET and GET (R66 step 5). -/
def State.coordOutOfRange (s : State) (x y z : Dim) : Bool :=
  s.sizeX.toNat ≤ x.toNat || s.sizeY.toNat ≤ y.toNat || s.sizeZ.toNat ≤ z.toNat

/-- The VALUE_RANGE test of PACK and SET (R66 step 6). -/
def State.valueOutOfRange (s : State) (v : Value) : Bool := 2 ^ s.bits.toNat ≤ v.toNat

/-- `bits` is one of the widths 4, 8, 16 (R3, R7). -/
def widthSupported (bits : BitVec 8) : Bool := bits == 4#8 || bits == 8#8 || bits == 16#8

/-- The straps of R171 that do not raise CFG_INVALID: no dimension is 0 and the width is 4, 8 or 16. -/
def Straps.valid (st : Straps) : Bool :=
  st.sizeX != 0#16 && st.sizeY != 0#16 && st.sizeZ != 0#16 && widthSupported st.bits

/-- The packed length L that the straps ask for (R171). -/
def Straps.bufferLength (st : Straps) : Nat :=
  packedBytes (voxelCount st.sizeX st.sizeY st.sizeZ) st.bits

end Sys2Proof.Machine
end

