-- ==== Sys2Proof/Machine/Ops.lean ====
section
/-! DEFINITION. The shared operations: bytes of the buffer (20_memory.md R40, R42), the response (30_encoding.md
R63), fault entry and what stands for a return from it (60_exceptions.md R147 to R149), reset (70_reset_and_hazards.md
R171), the checks of a command in order (R66), and taking the host's next input (10_state.md R28). -/

namespace Sys2Proof.Machine

/-! ### Bytes of the buffer -/

/-- The byte that a list of cells holds at an address. -/
def lookupCell (a : Nat) : List Host.Cell → Byte
  | [] => Config.unlistedByte
  | (a', b) :: rest => if a = a' then b else lookupCell a rest

/-- The list of cells with the byte at an address replaced, in canonical form again. -/
def putCell (a : Nat) (b : Byte) : List Host.Cell → List Host.Cell
  | [] => if b = Config.unlistedByte then [] else [(a, b)]
  | (a', b') :: rest =>
    if a < a' then
      if b = Config.unlistedByte then (a', b') :: rest else (a, b) :: (a', b') :: rest
    else if a = a' then
      if b = Config.unlistedByte then rest else (a, b) :: rest
    else (a', b') :: putCell a b rest

/-- `BUF[a]`; an address at or above the length does not exist (R42). -/
def Memory.read (m : Memory) (a : Nat) : Except Fault Byte :=
  if a < m.len then .ok (lookupCell a m.cells) else .error (.noSuchByte a)

/-- `BUF[a] <- b`; an address at or above the length does not exist (R42). -/
def Memory.write (m : Memory) (a : Nat) (b : Byte) : Except Fault Memory :=
  if a < m.len then .ok { m with cells := putCell a b m.cells } else .error (.noSuchByte a)

/-- `MemRead(a, 2)` of 00_scope.md R11: the byte at `a` is the less significant one. -/
def Memory.read16 (m : Memory) (a : Nat) : Except Fault (BitVec 16) :=
  match m.read a with
  | .error f => .error f
  | .ok lo =>
    match m.read (a + 1) with
    | .error f => .error f
    | .ok hi => .ok (hi ++ lo)

/-- `MemWrite(a, 2, v)` of 00_scope.md R11: `v[7:0]` goes to `a`, `v[15:8]` to `a + 1`. -/
def Memory.write16 (m : Memory) (a : Nat) (v : BitVec 16) : Except Fault Memory :=
  match m.write a (v.extractLsb' 0 8) with
  | .error f => .error f
  | .ok m' => m'.write (a + 1) (v.extractLsb' 8 8)

/-- A buffer of `len` bytes, each 0x00 (R171). -/
def Memory.zeroed (len : Nat) : Memory := { len := len, cells := [] }

/-! ### Responses and faults -/

/-- `respond(status, data)` (R11, R63). -/
def State.respond (s : State) (status : BitVec 8) (data : Value) : State :=
  { s with responses := s.responses ++ [responseWord status data] }

/-- The answer of a halted engine to any word: FF0000, and nothing changes (R148). -/
def State.respondHalted (s : State) : State := s.respond statusHalted 0x0000#16

/-- TAKING A FAULT: `raise Fault(cause)` during the command `cmd` (R147). CAUSE and INFO are written, the response
carries the cause, nothing else changes; the engine is halted by CAUSE being non-zero (R26). -/
def State.raiseFault (s : State) (cause : Cause) (cmd : CmdWord) : State :=
  { s with
    faultCause := cause
    faultInfo := cmd
    responses := s.responses ++ [responseWord cause.code 0x0000#16] }

/-- The cause that reset latches (R171, R173): CFG_INVALID wins over CFG_CAPACITY, and L is computed from valid
straps only. -/
def resetCause (capBytes : Nat) (st : Straps) : Cause :=
  if !st.valid then .cfgInvalid
  else if capBytes < st.bufferLength then .cfgCapacity
  else .noFault

/-- THE ONLY WAY OUT OF A FAULT: reset, the construction of a new instance (R149, R170), by the step of R171. It
produces no response, and the host's inputs and the responses already sent are not the engine's to change. -/
def State.applyReset (s : State) (st : Straps) : State :=
  { s with
    sizeX := st.sizeX
    sizeY := st.sizeY
    sizeZ := st.sizeZ
    bits := st.bits
    faultInfo := 0#80
    faultCause := resetCause s.capBytes st
    buf := Memory.zeroed (if resetCause s.capBytes st = .noFault then st.bufferLength else 0) }

/-! ### The order of checks -/

/-- The first check that holds, in the order listed (R66). -/
def firstViolation : List (Bool × Cause) → Option Cause
  | [] => none
  | (violated, cause) :: rest => if violated then some cause else firstViolation rest

/-- A command's frame, common to all (R66): the halted test, then the listed checks in order, the first that holds
being raised with the command's word, then the command's own effect. -/
def guarded (cmd : CmdWord) (checks : List (Bool × Cause)) (s : State)
    (effect : Host.Outcome State Fault Refusal) : Host.Outcome State Fault Refusal :=
  if s.halted then .next s.respondHalted
  else
    match firstViolation checks with
    | some cause => .next (s.raiseFault cause cmd)
    | none => effect

/-- A word with a reserved opcode (R64, R66 steps 1 and 2). -/
def illegalCommand (cmd : CmdWord) (s : State) : State :=
  if s.halted then s.respondHalted else s.raiseFault .illegalOpcode cmd

/-! ### The host's inputs -/

/-- The host's next input and the state without it; nothing when the host presents nothing (R28). -/
def State.takeEvent (s : State) : Option (HostEvent × State) :=
  match s.pending with
  | [] => none
  | e :: rest => some (e, { s with pending := rest })

end Sys2Proof.Machine
end

