-- ==== Sys2Proof/Machine/AccessorCommands.lean ====
section
/-! DEFINITION. SIZEX, SIZEY and SIZEZ (42_accessor_commands.md R101 to R103). -/

namespace Sys2Proof.Machine

/-- The template of the three accessors: every field but `OP` must be zero, then OK with the register. -/
def answerRegister (cmd : CmdWord) (w : BitVec 8) (a b c : BitVec 16) (v : Value) (register : Dim)
    (s : State) : Host.Outcome State Fault Refusal :=
  guarded cmd
    [(w != 0#8 || a != 0#16 || b != 0#16 || c != 0#16 || v != 0#16, .reservedField)]
    s (.next (s.respond statusOk register))

/-- SIZEX (R101). -/
def execSizex (w : BitVec 8) (a b c : BitVec 16) (v : Value) (s : State) :
    Host.Outcome State Fault Refusal :=
  answerRegister (encode (.sizex w a b c v)) w a b c v s.sizeX s

/-- SIZEY (R102). -/
def execSizey (w : BitVec 8) (a b c : BitVec 16) (v : Value) (s : State) :
    Host.Outcome State Fault Refusal :=
  answerRegister (encode (.sizey w a b c v)) w a b c v s.sizeY s

/-- SIZEZ (R103). -/
def execSizez (w : BitVec 8) (a b c : BitVec 16) (v : Value) (s : State) :
    Host.Outcome State Fault Refusal :=
  answerRegister (encode (.sizez w a b c v)) w a b c v s.sizeZ s

end Sys2Proof.Machine
end

