-- ==== Sys2Proof/Machine/Codec.lean ====
section
/-! DEFINITION. The codec: one slot of the buffer read or written at the declared width (20_memory.md R45, R46),
the two ways a command ends in the codec, and the buffer as one bit string (R48). -/

namespace Sys2Proof.Machine

/-- The nibble of a byte that holds a slot: the low one for an even slot, the high one for an odd slot (R45). -/
def nibbleOf (slot : Nat) (b : Byte) : BitVec 4 :=
  if slot % 2 = 0 then b.extractLsb' 0 4 else b.extractLsb' 4 4

/-- The byte with the slot's nibble replaced and the other one kept (R46). -/
def withNibble (slot : Nat) (b : Byte) (v : Value) : Byte :=
  if slot % 2 = 0 then (b &&& 0xF0#8) ||| v.setWidth 8
  else (b &&& 0x0F#8) ||| (v.setWidth 8 <<< 4)

/-- `codec_read(s)`, zero-extended to 16 bits (R45). -/
def codecRead (m : Memory) (bits : BitVec 8) (slot : Nat) : Except Fault Value :=
  match bits.toNat with
  | 4 =>
    match m.read (slot / 2) with
    | .error f => .error f
    | .ok b => .ok ((nibbleOf slot b).setWidth 16)
  | 8 =>
    match m.read slot with
    | .error f => .error f
    | .ok b => .ok (b.setWidth 16)
  | 16 => m.read16 (2 * slot)
  | _ => .error (.noSuchWidth bits)

/-- `codec_write(s, v)` (R46). -/
def codecWrite (m : Memory) (bits : BitVec 8) (slot : Nat) (v : Value) : Except Fault Memory :=
  match bits.toNat with
  | 4 =>
    match m.read (slot / 2) with
    | .error f => .error f
    | .ok b => m.write (slot / 2) (withNibble slot b v)
  | 8 => m.write slot (v.setWidth 8)
  | 16 => m.write16 (2 * slot) v
  | _ => .error (.noSuchWidth bits)

/-- The end of PACK and SET: `codec_write(s, v)`, then OK (R81, R91). -/
def storeSlot (slot : Nat) (v : Value) (s : State) : Host.Outcome State Fault Refusal :=
  match codecWrite s.buf s.bits slot v with
  | .error f => .fault f
  | .ok buf => .next (({ s with buf := buf } : State).respond statusOk 0x0000#16)

/-- The end of UNPACK and GET: OK with `codec_read(s)` (R83, R93). -/
def answerSlot (slot : Nat) (s : State) : Host.Outcome State Fault Refusal :=
  match codecRead s.buf s.bits slot with
  | .error f => .fault f
  | .ok v => .next (s.respond statusOk v)

/-- Buffer bit k: bit k mod 8 of byte k div 8 (R48). -/
def Memory.bit (m : Memory) (k : Nat) : Bool := (lookupCell (k / 8) m.cells).getLsbD (k % 8)

/-- The byte image `BUF[0], …, BUF[L-1]` (R52). -/
def Memory.image (m : Memory) : List Byte := (List.range m.len).map fun a => lookupCell a m.cells

end Sys2Proof.Machine
end

