-- ==== Sys2Proof/Machine/CodecCommands.lean ====
section
/-! DEFINITION. PACK and UNPACK (40_codec_commands.md R81, R83). -/

namespace Sys2Proof.Machine

/-- PACK (R81). -/
def execPack (w : BitVec 8) (slot : SlotIndex) (v : Value) (s : State) :
    Host.Outcome State Fault Refusal :=
  guarded (encode (.pack w slot v))
    [(w != s.bits, .widthMismatch),
     (s.slotOutOfRange slot, .slotRange),
     (s.valueOutOfRange v, .valueRange)]
    s (storeSlot slot.toNat v s)

/-- UNPACK (R83). -/
def execUnpack (w : BitVec 8) (slot : SlotIndex) (v : Value) (s : State) :
    Host.Outcome State Fault Refusal :=
  guarded (encode (.unpack w slot v))
    [(v != 0#16, .reservedField),
     (w != s.bits, .widthMismatch),
     (s.slotOutOfRange slot, .slotRange)]
    s (answerSlot slot.toNat s)

end Sys2Proof.Machine
end

