-- ==== Sys2Proof/Machine/DenseCommands.lean ====
section
/-! DEFINITION. SET and GET (41_dense_commands.md R91, R93). -/

namespace Sys2Proof.Machine

/-- SET (R91). -/
def execSet (w : BitVec 8) (x y z : Dim) (v : Value) (s : State) :
    Host.Outcome State Fault Refusal :=
  guarded (encode (.set w x y z v))
    [(w != 0#8, .reservedField),
     (s.coordOutOfRange x y z, .coordRange),
     (s.valueOutOfRange v, .valueRange)]
    s (storeSlot (s.voxelSlot x y z) v s)

/-- GET (R93). -/
def execGet (w : BitVec 8) (x y z : Dim) (v : Value) (s : State) :
    Host.Outcome State Fault Refusal :=
  guarded (encode (.get w x y z v))
    [(w != 0#8 || v != 0#16, .reservedField),
     (s.coordOutOfRange x y z, .coordRange)]
    s (answerSlot (s.voxelSlot x y z) s)

end Sys2Proof.Machine
end

