-- ==== Sys2Proof/Machine/Dispatch.lean ====
section
/-! DEFINITION. One arm per command, each one direct call of the command's meaning. -/

namespace Sys2Proof.Machine

def exec (i : Instr) (s : State) : Host.Outcome State Fault Refusal :=
  match i with
  | .pack w slot v => Sys2Proof.Machine.execPack w slot v s
  | .unpack w slot v => Sys2Proof.Machine.execUnpack w slot v s
  | .set w x y z v => Sys2Proof.Machine.execSet w x y z v s
  | .get w x y z v => Sys2Proof.Machine.execGet w x y z v s
  | .sizex w a b c v => Sys2Proof.Machine.execSizex w a b c v s
  | .sizey w a b c v => Sys2Proof.Machine.execSizey w a b c v s
  | .sizez w a b c v => Sys2Proof.Machine.execSizez w a b c v s

end Sys2Proof.Machine
end

