-- ==== Sys2Proof/Machine/Command.lean ====
section
/-! DEFINITION. One command word (30_encoding.md R66) and one input of the host (10_state.md R28, R30). -/

namespace Sys2Proof.Machine

/-- A command word that has arrived: decoded and run, or met with ILLEGAL_OPCODE; in either case the halted test
comes first (R66). -/
def runWord (cmd : CmdWord) (s : State) : Host.Outcome State Fault Refusal :=
  match decode cmd with
  | .command i => exec i s
  | .illegal (.illegalOpcode _) => .next (illegalCommand cmd s)

/-- One input of the host, taken from its list already. -/
def runEvent (e : HostEvent) (s : State) : Host.Outcome State Fault Refusal :=
  match e with
  | .command cmd => runWord cmd s
  | .reset straps => .next (s.applyReset straps)

end Sys2Proof.Machine
end

