-- ==== Sys2Proof/Machine/Step.lean ====
section
/-! DEFINITION. The step, and where the host places a word for it. -/

namespace Sys2Proof.Machine

/-- One step: the host's next input, a command or a reset, as one indivisible transition (00_scope.md R12,
70_reset_and_hazards.md R171). With no input the engine is idle and keeps all its state (60_exceptions.md R155). -/
def step (s : State) : Host.Outcome State Fault Refusal :=
  match s.takeEvent with
  | none => .next s
  | some (e, s') => runEvent e s'

/-- The state with a command word placed as the host's next input: the engine fetches nothing, it takes the command
the host presents (10_state.md R28). Log entry 1. -/
def State.withFetchWord (s : State) (nbits w : Nat) : State :=
  { s with pending := .command (BitVec.ofNat 80 (w % 2 ^ nbits)) :: s.pending }

end Sys2Proof.Machine
end

