-- ==== Sys2Proof/Safety.lean ====
section
/-! DEFINITION. What a state that a reset can lead to looks like (10_state.md R32, R33), what a run is, and the terms
the statements use: the order of checks read from the bare bits of a word, and what a command stores. Nothing here is
part of the machine; the step does not call it. -/

namespace Sys2Proof.Safety

open Sys2Proof.Machine

/-! ### The order of checks, from the bits of a word and the well-formed masks of the opcode table -/

/-- `OP` of a word as a number (30_encoding.md R60). -/
def opOf (c : CmdWord) : Nat := c.toNat / 2 ^ 72

/-- `W` of a word as a number (R60). -/
def wOf (c : CmdWord) : Nat := c.toNat / 2 ^ 64 % 2 ^ 8

/-- `A` of a word as a number (R60). -/
def aOf (c : CmdWord) : Nat := c.toNat / 2 ^ 48 % 2 ^ 16

/-- `B` of a word as a number (R60). -/
def bOf (c : CmdWord) : Nat := c.toNat / 2 ^ 32 % 2 ^ 16

/-- `C` of a word as a number (R60). -/
def cOf (c : CmdWord) : Nat := c.toNat / 2 ^ 16 % 2 ^ 16

/-- `V` of a word as a number (R60). -/
def vOf (c : CmdWord) : Nat := c.toNat % 2 ^ 16

/-- The slot index of a word, A * 2^32 + B * 2^16 + C (R61). -/
def slotNumber (c : CmdWord) : Nat := aOf c * 2 ^ 32 + bOf c * 2 ^ 16 + cOf c

/-- The bits of a word that must be zero for an opcode: the row's well-formed mask in the opcode table without the
opcode's own bits (R62, R64). -/
def mustBeZeroMask (op : Nat) : CmdWord :=
  if op = 2 then 0x0000000000000000FFFF#80
  else if op = 3 then 0x00FF0000000000000000#80
  else if op = 4 then 0x00FF000000000000FFFF#80
  else if op = 5 ∨ op = 6 ∨ op = 7 then 0x00FFFFFFFFFFFFFFFFFF#80
  else 0#80

/-- The fault that a word raises in an engine with these registers that is not halted: steps 2 to 6 of R66, and
nothing where the command executes. -/
def violation (sizeX sizeY sizeZ : Dim) (bits : BitVec 8) (c : CmdWord) : Option Cause :=
  if opOf c < 1 ∨ 7 < opOf c then some .illegalOpcode
  else if c &&& mustBeZeroMask (opOf c) ≠ 0#80 then some .reservedField
  else if opOf c ≤ 2 ∧ wOf c ≠ bits.toNat then some .widthMismatch
  else if opOf c ≤ 2 ∧ sizeX.toNat * sizeY.toNat * sizeZ.toNat ≤ slotNumber c then some .slotRange
  else if (opOf c = 3 ∨ opOf c = 4) ∧
      (sizeX.toNat ≤ aOf c ∨ sizeY.toNat ≤ bOf c ∨ sizeZ.toNat ≤ cOf c) then some .coordRange
  else if (opOf c = 1 ∨ opOf c = 3) ∧ 2 ^ bits.toNat ≤ vOf c then some .valueRange
  else none

/-- `violation` with the registers of a state. -/
def violationIn (s : State) (c : CmdWord) : Option Cause :=
  violation s.sizeX s.sizeY s.sizeZ s.bits c

/-! ### The states a reset can lead to -/

/-- The registers and the buffer of an instance that no configuration fault halted (R32): positive dimensions, a
supported width, a buffer of exactly L bytes that fits, and a zero pad nibble. -/
abbrev Constructed (s : State) : Prop :=
  1 ≤ s.sizeX.toNat ∧ 1 ≤ s.sizeY.toNat ∧ 1 ≤ s.sizeZ.toNat ∧
  (s.bits = 4#8 ∨ s.bits = 8#8 ∨ s.bits = 16#8) ∧
  s.buf.len = s.bufferLength ∧ s.bufferLength ≤ s.capBytes ∧
  (s.bits = 4#8 → s.slotCount % 2 = 1 →
    (lookupCell (s.bufferLength - 1) s.buf.cells).extractLsb' 4 4 = 0#4)

/-- The straps a state's registers were loaded from (R171). -/
def strapsOf (s : State) : Straps :=
  { sizeX := s.sizeX, sizeY := s.sizeY, sizeZ := s.sizeZ, bits := s.bits }

/-- The invariant of R32 and R33. The parameter `CAP_BYTES` is at least 1 (00_scope.md R7); the buffer is in
canonical form; after a configuration fault the straps deserve it, the buffer is empty and INFO is zero; otherwise
the instance is constructed, and INFO is zero if there is no fault and else a word that raises exactly the cause
recorded. -/
abbrev Inv (s : State) : Prop :=
  1 ≤ s.capBytes ∧ s.buf.wf ∧
  (s.faultCause = .cfgInvalid ∨ s.faultCause = .cfgCapacity →
    resetCause s.capBytes (strapsOf s) = s.faultCause ∧ s.buf.len = 0 ∧ s.faultInfo = 0#80) ∧
  (¬(s.faultCause = .cfgInvalid ∨ s.faultCause = .cfgCapacity) → Constructed s) ∧
  (s.faultCause = .noFault → s.faultInfo = 0#80) ∧
  (¬(s.faultCause = .noFault ∨ s.faultCause = .cfgInvalid ∨ s.faultCause = .cfgCapacity) →
    violationIn s s.faultInfo = some s.faultCause)

/-- A constructed engine that no fault has halted: one that executes commands. -/
abbrev Running (s : State) : Prop := Inv s ∧ s.faultCause = .noFault

/-! ### Terms of the statements -/

/-- The bytes of the buffer hold this value in this slot, at each width, in numbers (20_memory.md R45). -/
def SlotHolds (m : Memory) (bits : BitVec 8) (slot : Nat) (v : Value) : Prop :=
  (bits = 4#8 → ∃ b, m.read (slot / 2) = .ok b ∧
    v.toNat = if slot % 2 = 0 then b.toNat % 16 else b.toNat / 16) ∧
  (bits = 8#8 → ∃ b, m.read slot = .ok b ∧ v.toNat = b.toNat) ∧
  (bits = 16#8 → ∃ lo hi, m.read (2 * slot) = .ok lo ∧ m.read (2 * slot + 1) = .ok hi ∧
    v.toNat = lo.toNat + 256 * hi.toNat)

/-- The buffer `m'` is `m` with this value stored in this slot and every other byte, and at 4 bits the other nibble,
as before, at each width, in numbers (20_memory.md R46). -/
def SlotStored (m m' : Memory) (bits : BitVec 8) (slot : Nat) (v : Value) : Prop :=
  m'.len = m.len ∧
  (bits = 4#8 → (∃ b b', m.read (slot / 2) = .ok b ∧ m'.read (slot / 2) = .ok b' ∧
      b'.toNat = if slot % 2 = 0 then b.toNat / 16 * 16 + v.toNat else b.toNat % 16 + 16 * v.toNat) ∧
    ∀ a, a ≠ slot / 2 → m'.read a = m.read a) ∧
  (bits = 8#8 → (∃ b', m'.read slot = .ok b' ∧ b'.toNat = v.toNat) ∧
    ∀ a, a ≠ slot → m'.read a = m.read a) ∧
  (bits = 16#8 → (∃ lo hi, m'.read (2 * slot) = .ok lo ∧ m'.read (2 * slot + 1) = .ok hi ∧
      lo.toNat = v.toNat % 256 ∧ hi.toNat = v.toNat / 256) ∧
    ∀ a, a ≠ 2 * slot → a ≠ 2 * slot + 1 → m'.read a = m.read a)

/-- The state with one more response word sent. -/
def answering (s : State) (r : RespWord) : State := { s with responses := s.responses ++ [r] }

/-- The state with the host's next input taken. -/
def taking (s : State) (rest : List HostEvent) : State := { s with pending := rest }

/-- The state with a fault latched by a command, and the response that reports it, sent. -/
def faulting (s : State) (i : Instr) (cause : Cause) (r : RespWord) : State :=
  { s with faultCause := cause, faultInfo := encode i, responses := s.responses ++ [r] }

/-- The rule that the three accessors share (42_accessor_commands.md R101 to R103): halted, a stray field, or the
register in the response and nothing changed. -/
def AccessorRule (s : State) (i : Instr) (otherFieldsZero : Prop) (register : Dim) : Prop :=
  (s.faultCause = .noFault → otherFieldsZero → exec i s = .next (answering s (register.setWidth 24))) ∧
  (s.faultCause = .noFault → ¬ otherFieldsZero →
    exec i s = .next (faulting s i .reservedField 0x020000#24)) ∧
  (s.faultCause ≠ .noFault → exec i s = .next (answering s 0xFF0000#24))

/-- The engine's own state in two machines is the same: the seven pieces of 10_state.md R20. -/
def SameEngine (s t : State) : Prop :=
  s.sizeX = t.sizeX ∧ s.sizeY = t.sizeY ∧ s.sizeZ = t.sizeZ ∧ s.bits = t.bits ∧ s.buf = t.buf ∧
    s.faultCause = t.faultCause ∧ s.faultInfo = t.faultInfo

/-- The number of the word that a written line is assembled into (30_encoding.md R68). -/
def assembledNumber : Written → Nat
  | .pack w slot value => 0x01 * 2 ^ 72 + w * 2 ^ 64 + slot * 2 ^ 16 + value
  | .unpack w slot => 0x02 * 2 ^ 72 + w * 2 ^ 64 + slot * 2 ^ 16
  | .set x y z value => 0x03 * 2 ^ 72 + x * 2 ^ 48 + y * 2 ^ 32 + z * 2 ^ 16 + value
  | .get x y z => 0x04 * 2 ^ 72 + x * 2 ^ 48 + y * 2 ^ 32 + z * 2 ^ 16
  | .sizex => 0x05 * 2 ^ 72
  | .sizey => 0x06 * 2 ^ 72
  | .sizez => 0x07 * 2 ^ 72

/-- No operand of a written line is too large for its field (R68): w up to 255, a slot below 2^48, a coordinate or a
value below 2^16. -/
def operandsFit : Written → Prop
  | .pack w slot value => w ≤ 255 ∧ slot < 2 ^ 48 ∧ value < 2 ^ 16
  | .unpack w slot => w ≤ 255 ∧ slot < 2 ^ 48
  | .set x y z value => x < 2 ^ 16 ∧ y < 2 ^ 16 ∧ z < 2 ^ 16 ∧ value < 2 ^ 16
  | .get x y z => x < 2 ^ 16 ∧ y < 2 ^ 16 ∧ z < 2 ^ 16
  | .sizex | .sizey | .sizez => True

/-- The causes that each command can raise (60_exceptions.md R143). -/
def raisable : Instr → List Cause
  | .pack _ _ _ => [.widthMismatch, .slotRange, .valueRange]
  | .unpack _ _ _ => [.reservedField, .widthMismatch, .slotRange]
  | .set _ _ _ _ _ => [.reservedField, .coordRange, .valueRange]
  | .get _ _ _ _ _ => [.reservedField, .coordRange]
  | .sizex _ _ _ _ _ => [.reservedField]
  | .sizey _ _ _ _ _ => [.reservedField]
  | .sizez _ _ _ _ _ => [.reservedField]

/-- What a word stores when its command executes: the slot and the value of a PACK or a SET (R81, R91). -/
def storedBy (sizeX sizeZ : Dim) (c : CmdWord) : Option (Nat × Nat) :=
  if opOf c = 1 then some (slotNumber c, vOf c)
  else if opOf c = 3 then some (slotOf sizeX.toNat sizeZ.toNat (aOf c) (bOf c) (cOf c), vOf c)
  else none

/-- The value of the latest of these words that stores into a slot (20_memory.md R53). -/
def lastStored (sizeX sizeZ : Dim) (slot : Nat) : List CmdWord → Option Nat
  | [] => none
  | c :: rest =>
    match lastStored sizeX sizeZ slot rest with
    | some v => some v
    | none =>
      match storedBy sizeX sizeZ c with
      | some (k, v) => if k = slot then some v else none
      | none => none

/-- The number of commands among a list of inputs: each is owed one response (30_encoding.md R63). -/
def commandsIn : List HostEvent → Nat
  | [] => 0
  | .command _ :: rest => commandsIn rest + 1
  | .reset _ :: rest => commandsIn rest

/-- The PACK commands that load a byte image at a declared width: each slot below `n`, in rising order, gets the value
it has in the image (20_memory.md R52). -/
def loadCommands (bits : BitVec 8) (image : Memory) (n : Nat) : List CmdWord :=
  (List.range n).map fun k =>
    match codecRead image bits k with
    | .ok v => encode (.pack bits (BitVec.ofNat 48 k) v)
    | .error _ => 0#80

end Sys2Proof.Safety
end

