-- ==== Sys2Proof/Laws/Encoding.lean ====
section
/-! SUPPORT. The fields of a word and the word of its fields (30_encoding.md R60), by way of the numbers they are:
each field of `formatC` is the one put there, and a word is `formatC` of its fields. -/

namespace Sys2Proof

open Sys2Proof.Safety

/-- Concatenation as a number (00_scope.md R10). -/
theorem toNat_append_eq {n m : Nat} (x : BitVec n) (y : BitVec m) :
    (x ++ y).toNat = x.toNat * 2 ^ m + y.toNat := by
  rw [BitVec.toNat_append, ← Nat.shiftLeft_add_eq_or_of_lt y.isLt, Nat.shiftLeft_eq]

/-- The number of a word in the format `C` (R60). -/
theorem formatC_toNat (op w : BitVec 8) (a b c v : BitVec 16) :
    (formatC op w a b c v).toNat =
      op.toNat * 2 ^ 72 + w.toNat * 2 ^ 64 + a.toNat * 2 ^ 48 + b.toNat * 2 ^ 32 +
        c.toNat * 2 ^ 16 + v.toNat := by
  have h := toNat_append_eq (op ++ w ++ a ++ b ++ c) v
  rw [toNat_append_eq (op ++ w ++ a ++ b) c, toNat_append_eq (op ++ w ++ a) b,
    toNat_append_eq (op ++ w) a, toNat_append_eq op w] at h
  refine Eq.trans h ?_
  ring

/-- The number of a slot index (R61). -/
theorem slotIndex_toNat (a b c : BitVec 16) :
    (slotIndex a b c).toNat = a.toNat * 2 ^ 32 + b.toNat * 2 ^ 16 + c.toNat := by
  have h := toNat_append_eq (a ++ b) c
  rw [toNat_append_eq a b] at h
  refine Eq.trans h ?_
  ring

section fields
variable (cmd : CmdWord)

theorem fieldOp_toNat : (fieldOp cmd).toNat = opOf cmd := by
  have := cmd.isLt
  simp only [fieldOp, opOf, BitVec.extractLsb'_toNat, Nat.shiftRight_eq_div_pow]
  omega
theorem fieldW_toNat : (fieldW cmd).toNat = wOf cmd := by
  simp only [fieldW, wOf, BitVec.extractLsb'_toNat, Nat.shiftRight_eq_div_pow]
theorem fieldA_toNat : (fieldA cmd).toNat = aOf cmd := by
  simp only [fieldA, aOf, BitVec.extractLsb'_toNat, Nat.shiftRight_eq_div_pow]
theorem fieldB_toNat : (fieldB cmd).toNat = bOf cmd := by
  simp only [fieldB, bOf, BitVec.extractLsb'_toNat, Nat.shiftRight_eq_div_pow]
theorem fieldC_toNat : (fieldC cmd).toNat = cOf cmd := by
  simp only [fieldC, cOf, BitVec.extractLsb'_toNat, Nat.shiftRight_eq_div_pow]
theorem fieldV_toNat : (fieldV cmd).toNat = vOf cmd := by
  simp [fieldV, vOf]

/-- The decoder's slot index is the number of R61. -/
theorem slotIndex_fields_toNat :
    (slotIndex (fieldA cmd) (fieldB cmd) (fieldC cmd)).toNat = slotNumber cmd := by
  rw [slotIndex_toNat, fieldA_toNat, fieldB_toNat, fieldC_toNat, slotNumber]

end fields

section formatC
variable (op w : BitVec 8) (a b c v : BitVec 16)

@[simp] theorem opOf_formatC : opOf (formatC op w a b c v) = op.toNat := by
  rw [opOf, formatC_toNat]; omega
@[simp] theorem wOf_formatC : wOf (formatC op w a b c v) = w.toNat := by
  rw [wOf, formatC_toNat]; omega
@[simp] theorem aOf_formatC : aOf (formatC op w a b c v) = a.toNat := by
  rw [aOf, formatC_toNat]; omega
@[simp] theorem bOf_formatC : bOf (formatC op w a b c v) = b.toNat := by
  rw [bOf, formatC_toNat]; omega
@[simp] theorem cOf_formatC : cOf (formatC op w a b c v) = c.toNat := by
  rw [cOf, formatC_toNat]; omega
@[simp] theorem vOf_formatC : vOf (formatC op w a b c v) = v.toNat := by
  rw [vOf, formatC_toNat]; omega

@[simp] theorem fieldOp_formatC : fieldOp (formatC op w a b c v) = op :=
  BitVec.eq_of_toNat_eq (by rw [fieldOp_toNat, opOf_formatC])
@[simp] theorem fieldW_formatC : fieldW (formatC op w a b c v) = w :=
  BitVec.eq_of_toNat_eq (by rw [fieldW_toNat, wOf_formatC])
@[simp] theorem fieldA_formatC : fieldA (formatC op w a b c v) = a :=
  BitVec.eq_of_toNat_eq (by rw [fieldA_toNat, aOf_formatC])
@[simp] theorem fieldB_formatC : fieldB (formatC op w a b c v) = b :=
  BitVec.eq_of_toNat_eq (by rw [fieldB_toNat, bOf_formatC])
@[simp] theorem fieldC_formatC : fieldC (formatC op w a b c v) = c :=
  BitVec.eq_of_toNat_eq (by rw [fieldC_toNat, cOf_formatC])
@[simp] theorem fieldV_formatC : fieldV (formatC op w a b c v) = v :=
  BitVec.eq_of_toNat_eq (by rw [fieldV_toNat, vOf_formatC])

end formatC

/-- A word is the format `C` of its fields. -/
theorem formatC_fields (cmd : CmdWord) :
    formatC (fieldOp cmd) (fieldW cmd) (fieldA cmd) (fieldB cmd) (fieldC cmd) (fieldV cmd) = cmd := by
  refine BitVec.eq_of_toNat_eq ?_
  have := cmd.isLt
  rw [formatC_toNat, fieldOp_toNat, fieldW_toNat, fieldA_toNat, fieldB_toNat, fieldC_toNat,
    fieldV_toNat]
  simp only [opOf, wOf, aOf, bOf, cOf, vOf]
  omega

/-! ### The response word (R63) -/

section responseWord
variable (status : BitVec 8) (data : Value)

@[simp] theorem responseWord_status : (Machine.responseWord status data).extractLsb' 16 8 = status := by
  refine BitVec.eq_of_toNat_eq ?_
  have h : (Machine.responseWord status data).toNat = _ := toNat_append_eq status data
  simp only [BitVec.extractLsb'_toNat, Nat.shiftRight_eq_div_pow, h]
  omega

@[simp] theorem responseWord_data : (Machine.responseWord status data).extractLsb' 0 16 = data := by
  refine BitVec.eq_of_toNat_eq ?_
  have h : (Machine.responseWord status data).toNat = _ := toNat_append_eq status data
  simp only [BitVec.extractLsb'_toNat, Nat.shiftRight_eq_div_pow, h]
  omega

end responseWord

/-- An OK response is its data, zero-extended. -/
theorem responseWord_ok (data : Value) :
    Machine.responseWord Machine.statusOk data = data.setWidth 24 := by
  refine BitVec.eq_of_toNat_eq ?_
  have h : (Machine.responseWord Machine.statusOk data).toNat = _ :=
    toNat_append_eq Machine.statusOk data
  rw [h]
  simp only [BitVec.toNat_setWidth, BitVec.toNat_ofNat]
  omega

/-! ### Slots in words (R61, R68) -/

/-- A slot index taken apart and put together again. -/
@[simp] theorem slotIndex_fields (slot : SlotIndex) :
    slotIndex (slot.extractLsb' 32 16) (slot.extractLsb' 16 16) (slot.extractLsb' 0 16) = slot := by
  refine BitVec.eq_of_toNat_eq ?_
  have := slot.isLt
  rw [slotIndex_toNat]
  simp only [BitVec.extractLsb'_toNat, Nat.shiftRight_eq_div_pow]
  omega

/-- A slot index put together and taken apart again: the slot's word is the word of its fields. -/
@[simp] theorem formatSlot_slotIndex (op w : BitVec 8) (a b c v : BitVec 16) :
    formatSlot op w (slotIndex a b c) v = formatC op w a b c v := by
  have h₁ : (slotIndex a b c).extractLsb' 32 16 = a := BitVec.eq_of_toNat_eq (by
    simp only [BitVec.extractLsb'_toNat, Nat.shiftRight_eq_div_pow, slotIndex_toNat]; omega)
  have h₂ : (slotIndex a b c).extractLsb' 16 16 = b := BitVec.eq_of_toNat_eq (by
    simp only [BitVec.extractLsb'_toNat, Nat.shiftRight_eq_div_pow, slotIndex_toNat]; omega)
  have h₃ : (slotIndex a b c).extractLsb' 0 16 = c := BitVec.eq_of_toNat_eq (by
    simp only [BitVec.extractLsb'_toNat, Nat.shiftRight_eq_div_pow, slotIndex_toNat]; omega)
  rw [formatSlot, h₁, h₂, h₃]

/-- The slot number of a word with a slot index in it. -/
@[simp] theorem slotNumber_formatSlot (op w : BitVec 8) (slot : SlotIndex) (v : BitVec 16) :
    slotNumber (formatSlot op w slot v) = slot.toNat := by
  have := slotIndex_fields_toNat (formatSlot op w slot v)
  simpa [formatSlot] using this.symm

end Sys2Proof
end

