-- ==== Sys2Proof/Laws/PerInstr.lean ====
section
/-! SUPPORT. Statements about every command as syntax, one lemma per constructor. -/

namespace Sys2Proof.Laws

/-- The opcode byte of a command's word is the command's own (30_encoding.md R64). -/
def OpcodeByte.Statement (i : Instr) : Prop := fieldOp (encode i) = opcode i

theorem OpcodeByte.pack (w : BitVec 8) (slot : SlotIndex) (v : Value) :
    OpcodeByte.Statement (.pack w slot v) := fieldOp_formatC ..

theorem OpcodeByte.unpack (w : BitVec 8) (slot : SlotIndex) (v : Value) :
    OpcodeByte.Statement (.unpack w slot v) := fieldOp_formatC ..

theorem OpcodeByte.set (w : BitVec 8) (x y z : Dim) (v : Value) :
    OpcodeByte.Statement (.set w x y z v) := fieldOp_formatC ..

theorem OpcodeByte.get (w : BitVec 8) (x y z : Dim) (v : Value) :
    OpcodeByte.Statement (.get w x y z v) := fieldOp_formatC ..

theorem OpcodeByte.sizex (w : BitVec 8) (a b c : BitVec 16) (v : Value) :
    OpcodeByte.Statement (.sizex w a b c v) := fieldOp_formatC ..

theorem OpcodeByte.sizey (w : BitVec 8) (a b c : BitVec 16) (v : Value) :
    OpcodeByte.Statement (.sizey w a b c v) := fieldOp_formatC ..

theorem OpcodeByte.sizez (w : BitVec 8) (a b c : BitVec 16) (v : Value) :
    OpcodeByte.Statement (.sizez w a b c v) := fieldOp_formatC ..

end Sys2Proof.Laws
end

