-- ==== Sys2Proof/Certificates/Slice0/Obligations.lean ====
section
/-! DEFINITION. The statements for the provers, from the numbered rules of spec/. A statement about an engine that
executes commands takes `Safety.Running`, the invariant of 10_state.md R32 and R33 with no fault latched; that the
invariant holds at reset and is kept by every step are statements of their own. -/

section

open Sys2Proof Sys2Proof.Machine Sys2Proof.Safety

/-! ### Encoding -/

/-- 30_encoding.md R60, R64, R68: the decoder and the encoder are inverse on every command, with every field at every
value, and on every word that is a command. -/
def Obligations.DecodeAndEncodeAreInverse : Prop :=
  (∀ i : Instr, decode (encode i) = .command i) ∧
  (∀ (c : CmdWord) (i : Instr), decode c = .command i → encode i = c)

/-- 30_encoding.md R64, R65: decoding is by OP alone, the seven opcodes 0x01 to 0x07 decode and every other opcode is
the verdict illegal. -/
def Obligations.WordDecodesByOpcodeAlone : Prop :=
  ∀ c : CmdWord,
    ((∃ i, decode c = .command i) ↔ 1 ≤ opOf c ∧ opOf c ≤ 7) ∧
    (∀ e, decode c = .illegal e → e = .illegalOpcode (BitVec.ofNat 8 (opOf c))) ∧
    (∀ i, decode c = .command i → opOf c =
      match i with
      | .pack _ _ _ => 1
      | .unpack _ _ _ => 2
      | .set _ _ _ _ _ => 3
      | .get _ _ _ _ _ => 4
      | .sizex _ _ _ _ _ => 5
      | .sizey _ _ _ _ _ => 6
      | .sizez _ _ _ _ _ => 7)

/-- Words written out in 95_test_vectors.md V-E and 30_encoding.md R68 decode to the commands they stand for. -/
def Obligations.WrittenOutWordsDecode : Prop :=
  decode 0x011000000000000B00FF#80 = .command (.pack 16#8 11#48 0x00FF#16) ∧
  decode 0x02080000000011950000#80 = .command (.unpack 8#8 4501#48 0#16) ∧
  decode 0x0300000200010000BEEF#80 = .command (.set 0#8 2#16 1#16 0#16 0xBEEF#16) ∧
  decode 0x04000000006300000000#80 = .command (.get 0#8 0#16 99#16 0#16 0#16) ∧
  decode 0x05000000000000000000#80 = .command (.sizex 0#8 0#16 0#16 0#16 0#16) ∧
  decode 0x06000000000000000000#80 = .command (.sizey 0#8 0#16 0#16 0#16 0#16) ∧
  decode 0x07000000000000000000#80 = .command (.sizez 0#8 0#16 0#16 0#16 0#16) ∧
  decode 0x00000000000000000000#80 = .illegal (.illegalOpcode 0x00#8)

/-- 30_encoding.md R68: a written command whose operands fit assembles to the word of the rule, and one with an
operand that does not fit is rejected. -/
def Obligations.AssembledWordIsTheWrittenCommand : Prop :=
  ∀ line : Written,
    (operandsFit line → ∃ c, assemble line = some c ∧ c.toNat = assembledNumber line) ∧
    (¬ operandsFit line → assemble line = none)

/-! ### The step -/

/-- 00_scope.md R12, 10_state.md R28: when the host's next input is a word that decodes to a command, well-formed or
not, the step is that command's meaning in the state with the input taken. -/
def Obligations.StepRunsTheDecodedCommand : Prop :=
  ∀ (s : State) (c : CmdWord) (rest : List HostEvent) (i : Instr),
    s.pending = .command c :: rest → decode c = .command i →
      step s = exec i { s with pending := rest }

/-- 30_encoding.md R64: a word whose opcode is reserved takes the fault ILLEGAL_OPCODE. -/
def Obligations.ReservedOpcodeRaisesIllegalOpcode : Prop :=
  ∀ (s : State) (c : CmdWord) (rest : List HostEvent),
    s.faultCause = .noFault → s.pending = .command c :: rest → opOf c = 0 ∨ 8 ≤ opOf c →
      step s = .next { taking s rest with
        faultCause := .illegalOpcode
        faultInfo := c
        responses := s.responses ++ [0x010000#24] }

/-- 60_exceptions.md R155, log entry 9 (DEDUCED): with nothing presented the engine is idle with all state kept. -/
def Obligations.IdleEngineKeepsAllState : Prop :=
  ∀ s : State, s.pending = [] → step s = .next s

/-- 30_encoding.md R66: the halted test first, then the first check of the order that holds raises its fault, and where
none holds the command executes and answers OK. -/
def Obligations.StepFollowsTheOrderOfChecks : Prop :=
  ∀ (s : State) (c : CmdWord) (rest : List HostEvent),
    Inv s → s.pending = .command c :: rest →
      (s.faultCause ≠ .noFault → step s = .next (answering (taking s rest) 0xFF0000#24)) ∧
      (s.faultCause = .noFault →
        (∀ cause, violationIn s c = some cause →
          step s = .next { taking s rest with
            faultCause := cause
            faultInfo := c
            responses := s.responses ++ [responseWord cause.code 0x0000#16] }) ∧
        (violationIn s c = none → ∃ i t r, decode c = .command i ∧ step s = .next t ∧
          t.faultCause = .noFault ∧ t.responses = s.responses ++ [r] ∧ r.extractLsb' 16 8 = 0x00#8))

/-- 30_encoding.md R63: one response for every command and none for anything else; its STATUS is OK, the cause of the
fault the command raised, or HALTED; its DATA is the value read, the register, or zero. -/
def Obligations.EveryCommandGetsOneResponse : Prop :=
  ∀ s : State, (Inv s → ∃ t, step s = .next t) ∧ ∀ t, step s = .next t →
    (∀ c rest, s.pending = .command c :: rest → ∃ r, t.responses = s.responses ++ [r] ∧
      (s.faultCause ≠ .noFault → r.extractLsb' 16 8 = 0xFF#8 ∧ r.extractLsb' 0 16 = 0x0000#16) ∧
      (s.faultCause = .noFault →
        r.extractLsb' 16 8 = t.causeCode ∧
        r.extractLsb' 16 8 ∈ [0x00#8, 0x01#8, 0x02#8, 0x03#8, 0x05#8, 0x06#8, 0x07#8] ∧
        (r.extractLsb' 16 8 ≠ 0x00#8 → r.extractLsb' 0 16 = 0x0000#16) ∧
        (r.extractLsb' 16 8 = 0x00#8 →
          (opOf c = 2 → codecRead s.buf s.bits (slotNumber c) = .ok (r.extractLsb' 0 16)) ∧
          (opOf c = 4 → codecRead s.buf s.bits
            (slotOf s.sizeX.toNat s.sizeZ.toNat (aOf c) (bOf c) (cOf c)) = .ok (r.extractLsb' 0 16)) ∧
          (opOf c = 5 → r.extractLsb' 0 16 = s.sizeX) ∧
          (opOf c = 6 → r.extractLsb' 0 16 = s.sizeY) ∧
          (opOf c = 7 → r.extractLsb' 0 16 = s.sizeZ) ∧
          (opOf c = 1 ∨ opOf c = 3 → r.extractLsb' 0 16 = 0x0000#16)))) ∧
    ((∀ c rest, s.pending ≠ .command c :: rest) → t.responses = s.responses)

/-- 10_state.md R29, R31: nothing outside the seven pieces of R20 is state that a command can observe. Two machines
with the same engine state answer a word alike and go to the same engine state, whatever else they hold. -/
def Obligations.OnlyTheEngineStateIsObserved : Prop :=
  ∀ (s s' t : State) (c : CmdWord), SameEngine s s' → runWord c s = .next t →
    ∃ t' r, runWord c s' = .next t' ∧ SameEngine t t' ∧
      t.responses = s.responses ++ [r] ∧ t'.responses = s'.responses ++ [r]

/-! ### The codec -/

/-- 20_memory.md R45: `codec_read` of every slot in range, at each width, answers the number its bytes hold, below
2 to the power BITS. -/
def Obligations.CodecReadFollowsTheBytes : Prop :=
  ∀ (s : State) (slot : Nat), Running s → slot < s.slotCount →
    ∃ v, codecRead s.buf s.bits slot = .ok v ∧ SlotHolds s.buf s.bits slot v ∧
      v.toNat < 2 ^ s.bits.toNat

/-- 20_memory.md R46: `codec_write` of every slot in range and every value that fits, at each width, changes the one or
two bytes of the slot and nothing else. -/
def Obligations.CodecWriteFollowsTheBytes : Prop :=
  ∀ (s : State) (slot : Nat) (v : Value), Running s → slot < s.slotCount →
    v.toNat < 2 ^ s.bits.toNat →
      ∃ m', codecWrite s.buf s.bits slot v = .ok m' ∧ SlotStored s.buf m' s.bits slot v

/-- 20_memory.md, "The read-after-write laws of the codec" (derived there from R45 and R46): the slot written reads
the value, every other slot reads as before. -/
def Obligations.CodecReadsBackWhatItWrote : Prop :=
  ∀ (m m' : Memory) (bits : BitVec 8) (slot : Nat) (v : Value),
    m.wf → v.toNat < 2 ^ bits.toNat → codecWrite m bits slot v = .ok m' →
      codecRead m' bits slot = .ok v ∧
      ∀ other, other ≠ slot → codecRead m' bits other = codecRead m bits other

/-- 20_memory.md, "One routine for all widths" (derived there from R45 and R46): at every width W the codec reads and
writes the buffer bits from slot * W up to slot * W + W - 1. -/
def Obligations.CodecIsOneBitStringAtEveryWidth : Prop :=
  ∀ (m : Memory) (bits : BitVec 8) (slot : Nat), m.wf →
    (∀ v, codecRead m bits slot = .ok v →
      ∀ j, v.getLsbD j = (decide (j < bits.toNat) && m.bit (slot * bits.toNat + j))) ∧
    (∀ v m', v.toNat < 2 ^ bits.toNat → codecWrite m bits slot v = .ok m' →
      ∀ k, m'.bit k =
        if slot * bits.toNat ≤ k ∧ k < slot * bits.toNat + bits.toNat then
          v.getLsbD (k - slot * bits.toNat)
        else m.bit k)

/-- 20_memory.md section 2 (its inverse is derived there from R43): coordinates in range and slots below N
correspond one to one. -/
def Obligations.SlotsAndCoordinatesCorrespond : Prop :=
  ∀ sizeX sizeY sizeZ : Nat,
    (∀ x y z, x < sizeX → y < sizeY → z < sizeZ →
      slotOf sizeX sizeZ x y z < sizeX * sizeY * sizeZ ∧
      coordOf sizeX sizeZ (slotOf sizeX sizeZ x y z) = (x, y, z)) ∧
    (∀ slot, slot < sizeX * sizeY * sizeZ → ∃ x y z, coordOf sizeX sizeZ slot = (x, y, z) ∧
      x < sizeX ∧ y < sizeY ∧ z < sizeZ ∧ slotOf sizeX sizeZ x y z = slot)

/-- 41_dense_commands.md, "Scan order" (derived there from R43): y outermost, then z, then x innermost visits the slots
in rising order. -/
def Obligations.ScanOrderIsSlotOrder : Prop :=
  ∀ sizeX sizeZ x y z x' y' z' : Nat,
    x < sizeX → z < sizeZ → x' < sizeX → z' < sizeZ →
      (slotOf sizeX sizeZ x y z < slotOf sizeX sizeZ x' y' z' ↔
        y < y' ∨ (y = y' ∧ (z < z' ∨ (z = z' ∧ x < x'))))

/-! ### What each command does -/

/-- 40_codec_commands.md R81. PACK completes where the width is the declared one, the slot is below N and the value
fits: OK, the value in the slot, and nothing else changed. Else it raises the first of the rule's faults that holds,
and in a halted engine it answers HALTED. -/
def Obligations.PackFollowsItsRule : Prop :=
  ∀ (s : State) (w : BitVec 8) (slot : SlotIndex) (v : Value),
    (Running s → w = s.bits → slot.toNat < s.sizeX.toNat * s.sizeY.toNat * s.sizeZ.toNat →
      v.toNat < 2 ^ s.bits.toNat →
        ∃ m', exec (.pack w slot v) s = .next (answering { s with buf := m' } 0x000000#24) ∧
          SlotStored s.buf m' s.bits slot.toNat v) ∧
    (s.faultCause = .noFault → w ≠ s.bits →
      exec (.pack w slot v) s = .next (faulting s (.pack w slot v) .widthMismatch 0x030000#24)) ∧
    (s.faultCause = .noFault → w = s.bits →
      s.sizeX.toNat * s.sizeY.toNat * s.sizeZ.toNat ≤ slot.toNat →
        exec (.pack w slot v) s = .next (faulting s (.pack w slot v) .slotRange 0x050000#24)) ∧
    (s.faultCause = .noFault → w = s.bits →
      slot.toNat < s.sizeX.toNat * s.sizeY.toNat * s.sizeZ.toNat → 2 ^ s.bits.toNat ≤ v.toNat →
        exec (.pack w slot v) s = .next (faulting s (.pack w slot v) .valueRange 0x070000#24)) ∧
    (s.faultCause ≠ .noFault → exec (.pack w slot v) s = .next (answering s 0xFF0000#24))

/-- 40_codec_commands.md R83. UNPACK completes where its value field is zero, the width is the declared one and the
slot is below N: it answers OK with the slot's value, zero-extended, and changes nothing. Else it raises the first of
the rule's faults that holds, and in a halted engine it answers HALTED. -/
def Obligations.UnpackFollowsItsRule : Prop :=
  ∀ (s : State) (w : BitVec 8) (slot : SlotIndex) (f : Value),
    (Running s → f = 0#16 → w = s.bits →
      slot.toNat < s.sizeX.toNat * s.sizeY.toNat * s.sizeZ.toNat →
        ∃ v : Value, exec (.unpack w slot f) s = .next (answering s (v.setWidth 24)) ∧
          SlotHolds s.buf s.bits slot.toNat v) ∧
    (s.faultCause = .noFault → f ≠ 0#16 →
      exec (.unpack w slot f) s = .next (faulting s (.unpack w slot f) .reservedField 0x020000#24)) ∧
    (s.faultCause = .noFault → f = 0#16 → w ≠ s.bits →
      exec (.unpack w slot f) s = .next (faulting s (.unpack w slot f) .widthMismatch 0x030000#24)) ∧
    (s.faultCause = .noFault → f = 0#16 → w = s.bits →
      s.sizeX.toNat * s.sizeY.toNat * s.sizeZ.toNat ≤ slot.toNat →
        exec (.unpack w slot f) s = .next (faulting s (.unpack w slot f) .slotRange 0x050000#24)) ∧
    (s.faultCause ≠ .noFault → exec (.unpack w slot f) s = .next (answering s 0xFF0000#24))

/-- 41_dense_commands.md R91. SET completes where its width field is zero, the coordinate is in range and the value
fits: OK, the value in the slot ((y * SIZEZ + z) * SIZEX) + x, and nothing else changed. Else it raises the first of
the rule's faults that holds, and in a halted engine it answers HALTED. -/
def Obligations.SetFollowsItsRule : Prop :=
  ∀ (s : State) (w : BitVec 8) (x y z : Dim) (v : Value),
    (Running s → w = 0#8 →
      x.toNat < s.sizeX.toNat → y.toNat < s.sizeY.toNat → z.toNat < s.sizeZ.toNat →
      v.toNat < 2 ^ s.bits.toNat →
        ∃ m', exec (.set w x y z v) s = .next (answering { s with buf := m' } 0x000000#24) ∧
          SlotStored s.buf m' s.bits
            ((y.toNat * s.sizeZ.toNat + z.toNat) * s.sizeX.toNat + x.toNat) v) ∧
    (s.faultCause = .noFault → w ≠ 0#8 →
      exec (.set w x y z v) s = .next (faulting s (.set w x y z v) .reservedField 0x020000#24)) ∧
    (s.faultCause = .noFault → w = 0#8 →
      (s.sizeX.toNat ≤ x.toNat ∨ s.sizeY.toNat ≤ y.toNat ∨ s.sizeZ.toNat ≤ z.toNat) →
        exec (.set w x y z v) s = .next (faulting s (.set w x y z v) .coordRange 0x060000#24)) ∧
    (s.faultCause = .noFault → w = 0#8 →
      x.toNat < s.sizeX.toNat → y.toNat < s.sizeY.toNat → z.toNat < s.sizeZ.toNat →
      2 ^ s.bits.toNat ≤ v.toNat →
        exec (.set w x y z v) s = .next (faulting s (.set w x y z v) .valueRange 0x070000#24)) ∧
    (s.faultCause ≠ .noFault → exec (.set w x y z v) s = .next (answering s 0xFF0000#24))

/-- 41_dense_commands.md R93. GET completes where its width and value fields are zero and the coordinate is in range:
it answers OK with the voxel's value, zero-extended, and changes nothing. Else it raises the first of the rule's
faults that holds, and in a halted engine it answers HALTED. -/
def Obligations.GetFollowsItsRule : Prop :=
  ∀ (s : State) (w : BitVec 8) (x y z : Dim) (f : Value),
    (Running s → w = 0#8 → f = 0#16 →
      x.toNat < s.sizeX.toNat → y.toNat < s.sizeY.toNat → z.toNat < s.sizeZ.toNat →
        ∃ v : Value, exec (.get w x y z f) s = .next (answering s (v.setWidth 24)) ∧
          SlotHolds s.buf s.bits
            ((y.toNat * s.sizeZ.toNat + z.toNat) * s.sizeX.toNat + x.toNat) v) ∧
    (s.faultCause = .noFault → (w ≠ 0#8 ∨ f ≠ 0#16) →
      exec (.get w x y z f) s = .next (faulting s (.get w x y z f) .reservedField 0x020000#24)) ∧
    (s.faultCause = .noFault → w = 0#8 → f = 0#16 →
      (s.sizeX.toNat ≤ x.toNat ∨ s.sizeY.toNat ≤ y.toNat ∨ s.sizeZ.toNat ≤ z.toNat) →
        exec (.get w x y z f) s = .next (faulting s (.get w x y z f) .coordRange 0x060000#24)) ∧
    (s.faultCause ≠ .noFault → exec (.get w x y z f) s = .next (answering s 0xFF0000#24))

/-- 42_accessor_commands.md R101 to R103. SIZEX, SIZEY and SIZEZ complete where every other field is zero, in every
engine that is not halted: each answers OK with its register and changes nothing. A stray field raises
RESERVED_FIELD, and a halted engine answers HALTED. -/
def Obligations.AccessorsFollowTheirRules : Prop :=
  ∀ (s : State) (w : BitVec 8) (a b c : BitVec 16) (f : Value),
    AccessorRule s (.sizex w a b c f)
      (w = 0#8 ∧ a = 0#16 ∧ b = 0#16 ∧ c = 0#16 ∧ f = 0#16) s.sizeX ∧
    AccessorRule s (.sizey w a b c f)
      (w = 0#8 ∧ a = 0#16 ∧ b = 0#16 ∧ c = 0#16 ∧ f = 0#16) s.sizeY ∧
    AccessorRule s (.sizez w a b c f)
      (w = 0#8 ∧ a = 0#16 ∧ b = 0#16 ∧ c = 0#16 ∧ f = 0#16) s.sizeZ

/-- 30_encoding.md R62 with the well-formed masks of the opcode table: a command with a must-be-zero field that is not
zero takes the fault RESERVED_FIELD, and no other command does. -/
def Obligations.StrayFieldRaisesReservedField : Prop :=
  ∀ (s : State) (i : Instr),
    (s.faultCause = .noFault → encode i &&& mustBeZeroMask (opOf (encode i)) ≠ 0#80 →
      exec i s = .next (faulting s i .reservedField 0x020000#24)) ∧
    (Running s → encode i &&& mustBeZeroMask (opOf (encode i)) = 0#80 →
      ∃ t, exec i s = .next t ∧ t.faultCause ≠ .reservedField)

/-- 60_exceptions.md R143 (derived there from the command rules): the causes that each command can raise. -/
def Obligations.EachCommandRaisesOnlyItsCauses : Prop :=
  ∀ (s : State) (i : Instr), Running s →
    ∃ t, exec i s = .next t ∧ (t.faultCause = .noFault ∨ t.faultCause ∈ raisable i)

/-- 20_memory.md R51, R57 (derived there): UNPACK, GET and the accessors write no byte and no register but FAULT, and
where they raise no fault they change nothing but the responses. -/
def Obligations.ReadingCommandsChangeNothing : Prop :=
  ∀ (s t : State) (i : Instr),
    (∀ w slot v, i ≠ .pack w slot v) → (∀ w x y z v, i ≠ .set w x y z v) → exec i s = .next t →
      t.buf = s.buf ∧ t.sizeX = s.sizeX ∧ t.sizeY = s.sizeY ∧ t.sizeZ = s.sizeZ ∧ t.bits = s.bits ∧
      (t.faultCause = s.faultCause → t = { s with responses := t.responses })

/-- 40_codec_commands.md, "Relation to the dense commands" (derived there): PACK and SET of one voxel have the same
outcome, and so have UNPACK and GET. -/
def Obligations.SlotAndCoordinateFormsAgree : Prop :=
  ∀ (s : State) (x y z : Dim) (v : Value),
    Running s → x.toNat < s.sizeX.toNat → y.toNat < s.sizeY.toNat → z.toNat < s.sizeZ.toNat →
      (v.toNat < 2 ^ s.bits.toNat →
        exec (.pack s.bits
          (BitVec.ofNat 48 (slotOf s.sizeX.toNat s.sizeZ.toNat x.toNat y.toNat z.toNat)) v) s =
        exec (.set 0#8 x y z v) s) ∧
      exec (.unpack s.bits
          (BitVec.ofNat 48 (slotOf s.sizeX.toNat s.sizeZ.toNat x.toNat y.toNat z.toNat)) 0#16) s =
        exec (.get 0#8 x y z 0#16) s

/-- 41_dense_commands.md, "What SET guarantees afterwards" (derived there, and the source's own testable property):
after a SET, GET at the same coordinate answers the value and GET at every other one answers what it answered before. -/
def Obligations.SetThenGetAnswersTheValue : Prop :=
  ∀ (s : State) (x y z : Dim) (v : Value),
    Running s → x.toNat < s.sizeX.toNat → y.toNat < s.sizeY.toNat → z.toNat < s.sizeZ.toNat →
    v.toNat < 2 ^ s.bits.toNat →
      ∃ t, exec (.set 0#8 x y z v) s = .next t ∧
        exec (.get 0#8 x y z 0#16) t = .next (answering t (v.setWidth 24)) ∧
        ∀ x' y' z' : Dim, x'.toNat < s.sizeX.toNat → y'.toNat < s.sizeY.toNat →
          z'.toNat < s.sizeZ.toNat → (x', y', z') ≠ (x, y, z) →
            ∃ d : Value, exec (.get 0#8 x' y' z' 0#16) s = .next (answering s (d.setWidth 24)) ∧
              exec (.get 0#8 x' y' z' 0#16) t = .next (answering t (d.setWidth 24))

/-- 40_codec_commands.md, "What PACK guarantees afterwards" (derived there): after a PACK, UNPACK of the slot answers
the value, UNPACK of every other slot answers what it answered before, GET at the coordinate of the slot answers the
value, and no register changed. -/
def Obligations.PackThenUnpackAnswersTheValue : Prop :=
  ∀ (s : State) (slot : SlotIndex) (v : Value),
    Running s → slot.toNat < s.slotCount → v.toNat < 2 ^ s.bits.toNat →
      ∃ t, exec (.pack s.bits slot v) s = .next t ∧
        exec (.unpack s.bits slot 0#16) t = .next (answering t (v.setWidth 24)) ∧
        (∀ other : SlotIndex, other.toNat < s.slotCount → other ≠ slot →
          ∃ d : Value, exec (.unpack s.bits other 0#16) s = .next (answering s (d.setWidth 24)) ∧
            exec (.unpack s.bits other 0#16) t = .next (answering t (d.setWidth 24))) ∧
        (∀ x y z : Dim, x.toNat < s.sizeX.toNat → y.toNat < s.sizeY.toNat →
          z.toNat < s.sizeZ.toNat →
          slotOf s.sizeX.toNat s.sizeZ.toNat x.toNat y.toNat z.toNat = slot.toNat →
            exec (.get 0#8 x y z 0#16) t = .next (answering t (v.setWidth 24))) ∧
        t.statusOutput = s.statusOutput

/-! ### Faults and the halted engine -/

/-- 10_state.md R26: halted is FAULT.CAUSE not being 0x00. -/
def Obligations.HaltedIsCauseNotZero : Prop :=
  ∀ s : State, s.halted = true ↔ s.causeCode ≠ 0x00#8

/-- 60_exceptions.md R147: a fault taken during a command writes CAUSE and INFO, answers the cause, changes nothing
else, and leaves the engine halted with fault_out at 1. -/
def Obligations.FaultEntryRecordsTheCommand : Prop :=
  ∀ (s t : State) (c : CmdWord) (rest : List HostEvent),
    s.faultCause = .noFault → s.pending = .command c :: rest → step s = .next t →
    t.faultCause ≠ .noFault →
      t.causeCode ∈ [0x01#8, 0x02#8, 0x03#8, 0x05#8, 0x06#8, 0x07#8] ∧
      (∃ r, t = { taking s rest with
          faultCause := t.faultCause
          faultInfo := c
          responses := s.responses ++ [r] } ∧
        r.extractLsb' 16 8 = t.causeCode ∧ r.extractLsb' 0 16 = 0x0000#16) ∧
      t.halted = true ∧ t.faultOut = 1#1

/-- 60_exceptions.md R148: a halted engine answers FF0000 to every word, legal or not, and changes no state; the status
output shows what it showed. -/
def Obligations.HaltedEngineAnswersFF0000 : Prop :=
  ∀ (s : State) (c : CmdWord) (rest : List HostEvent),
    s.faultCause ≠ .noFault → s.pending = .command c :: rest →
      ∃ t, step s = .next t ∧ t = answering (taking s rest) 0xFF0000#24 ∧
        t.statusOutput = s.statusOutput

/-- 60_exceptions.md R149: no command clears FAULT; the only exit from the halted state is reset, which starts a new
instance with a zeroed buffer. -/
def Obligations.OnlyResetLeavesTheHaltedState : Prop :=
  ∀ s t : State, s.faultCause ≠ .noFault → step s = .next t →
    ((∀ st rest, s.pending ≠ .reset st :: rest) →
      t.faultCause = s.faultCause ∧ t.faultInfo = s.faultInfo) ∧
    (t.faultCause = .noFault → ∃ st rest, s.pending = .reset st :: rest ∧
      t.buf = { len := st.bufferLength, cells := [] } ∧
      ∀ a, a < st.bufferLength → t.buf.read a = .ok 0x00#8)

/-- 60_exceptions.md R150: fault_out is 1 exactly while FAULT.CAUSE is not 0x00; it rises at fault entry or at a reset
that raises a configuration fault, and falls only at a reset that raises none. -/
def Obligations.FaultOutFollowsTheCause : Prop :=
  ∀ s : State,
    (s.faultOut = 1#1 ↔ s.causeCode ≠ 0x00#8) ∧ (s.faultOut = 0#1 ↔ s.causeCode = 0x00#8) ∧
    ∀ t, step s = .next t →
      (s.faultOut = 0#1 → t.faultOut = 1#1 →
        (∃ c rest, s.pending = .command c :: rest ∧ t.faultInfo = c) ∨
        (∃ st rest, s.pending = .reset st :: rest ∧
          (t.causeCode = 0x10#8 ∨ t.causeCode = 0x11#8))) ∧
      (s.faultOut = 1#1 → t.faultOut = 0#1 →
        ∃ st rest, s.pending = .reset st :: rest ∧ resetCause s.capBytes st = .noFault)

/-! ### Reset -/

/-- 70_reset_and_hazards.md R171: the reset step, for every straps and every capacity. -/
def Obligations.ResetStepBuildsTheInstance : Prop :=
  ∀ (s : State) (st : Straps) (rest : List HostEvent), s.pending = .reset st :: rest →
    ∃ t, step s = .next t ∧
      t.sizeX = st.sizeX ∧ t.sizeY = st.sizeY ∧ t.sizeZ = st.sizeZ ∧ t.bits = st.bits ∧
      t.faultInfo = 0#80 ∧ t.buf.cells = [] ∧
      t.capBytes = s.capBytes ∧ t.pending = rest ∧ t.responses = s.responses ∧
      (st.sizeX = 0#16 ∨ st.sizeY = 0#16 ∨ st.sizeZ = 0#16 ∨
          ¬(st.bits.toNat = 4 ∨ st.bits.toNat = 8 ∨ st.bits.toNat = 16) →
        t.causeCode = 0x10#8 ∧ t.buf.len = 0) ∧
      (¬(st.sizeX = 0#16 ∨ st.sizeY = 0#16 ∨ st.sizeZ = 0#16 ∨
          ¬(st.bits.toNat = 4 ∨ st.bits.toNat = 8 ∨ st.bits.toNat = 16)) →
        (s.capBytes <
            (st.sizeX.toNat * st.sizeY.toNat * st.sizeZ.toNat * st.bits.toNat + 7) / 8 →
          t.causeCode = 0x11#8 ∧ t.buf.len = 0) ∧
        ((st.sizeX.toNat * st.sizeY.toNat * st.sizeZ.toNat * st.bits.toNat + 7) / 8 ≤ s.capBytes →
          t.causeCode = 0x00#8 ∧
          t.buf.len = (st.sizeX.toNat * st.sizeY.toNat * st.sizeZ.toNat * st.bits.toNat + 7) / 8 ∧
          ∀ a, a < t.buf.len → t.buf.read a = .ok 0x00#8))

/-- 70_reset_and_hazards.md R172: after a reset with valid straps that fit, the registers hold the straps, the buffer
has its length and every byte is 0x00, every slot reads 0 and every GET answers 0, nothing is faulted, and the engine
runs at once. -/
def Obligations.FreshInstanceReadsZero : Prop :=
  ∀ (s t : State) (st : Straps) (rest : List HostEvent),
    1 ≤ s.capBytes → s.pending = .reset st :: rest → st.valid = true →
    st.bufferLength ≤ s.capBytes → step s = .next t →
      Running t ∧ t.sizeX = st.sizeX ∧ t.sizeY = st.sizeY ∧ t.sizeZ = st.sizeZ ∧ t.bits = st.bits ∧
      t.buf.len = st.bufferLength ∧ t.causeCode = 0x00#8 ∧ t.faultInfo = 0#80 ∧ t.faultOut = 0#1 ∧
      (∀ a, a < st.bufferLength → t.buf.read a = .ok 0x00#8) ∧
      (∀ slot, slot < t.slotCount → codecRead t.buf t.bits slot = .ok 0x0000#16) ∧
      (∀ x y z : Dim, x.toNat < st.sizeX.toNat → y.toNat < st.sizeY.toNat →
        z.toNat < st.sizeZ.toNat →
          exec (.get 0#8 x y z 0#16) t = .next (answering t 0x000000#24))

/-- 70_reset_and_hazards.md R173: after a reset with bad straps the registers hold them as sampled, the buffer is empty,
fault_out is 1, and every command answers FF0000 and changes nothing. -/
def Obligations.BadStrapsLeaveTheEngineHalted : Prop :=
  ∀ (s t : State) (st : Straps) (rest : List HostEvent),
    s.pending = .reset st :: rest → step s = .next t →
    (st.valid = false ∨ s.capBytes < st.bufferLength) →
      t.sizeX = st.sizeX ∧ t.sizeY = st.sizeY ∧ t.sizeZ = st.sizeZ ∧ t.bits = st.bits ∧
      t.buf.len = 0 ∧ t.faultInfo = 0#80 ∧ t.faultOut = 1#1 ∧
      t.faultCause = (if st.valid = false then .cfgInvalid else .cfgCapacity) ∧
      ∀ c, runWord c t = .next (answering t 0xFF0000#24)

/-- 70_reset_and_hazards.md R170: whatever the previous instance held is lost. Two engines of one capacity that are
reset with the same straps are the same engine. -/
def Obligations.ResetForgetsTheOldInstance : Prop :=
  ∀ (s s' t t' : State) (st : Straps) (rest rest' : List HostEvent),
    s.capBytes = s'.capBytes → s.pending = .reset st :: rest → s'.pending = .reset st :: rest' →
    step s = .next t → step s' = .next t' → SameEngine t t'

/-- The model's own choice, log entries 3 and 4: `State.reset` is what the reset step gives, from any state with the
capacity 562924184010750, nothing more presented and nothing answered, for the straps (16, 256, 16, 8). -/
def Obligations.ResetStateIsAResetStep : Prop :=
  ∀ s : State, s.capBytes = 562924184010750 → s.responses = [] →
    s.pending = [.reset { sizeX := 16#16, sizeY := 256#16, sizeZ := 16#16, bits := 8#8 }] →
      step s = .next State.reset

/-- 10_state.md R21, R23, R24 and 00_scope.md R7: nothing but a reset changes the configuration registers or the
buffer's length, and nothing changes the capacity. -/
def Obligations.OnlyResetChangesTheConfiguration : Prop :=
  ∀ s t : State, step s = .next t →
    t.capBytes = s.capBytes ∧
    ((∀ st rest, s.pending ≠ .reset st :: rest) →
      t.sizeX = s.sizeX ∧ t.sizeY = s.sizeY ∧ t.sizeZ = s.sizeZ ∧ t.bits = s.bits ∧
      t.buf.len = s.buf.len)

/-! ### Invariants and runs -/

/-- The model's form of the buffer, log entry 5: every step keeps it canonical, in every state. -/
def Obligations.StepKeepsTheBufferCanonical : Prop :=
  ∀ s t : State, s.buf.wf → step s = .next t → t.buf.wf

/-- The invariant holds at `State.reset`. -/
def Obligations.ResetStateMeetsTheInvariant : Prop := Inv State.reset

/-- 10_state.md section 7 (its two rules are derived there): the invariant is kept by every step from every state that
meets it. -/
def Obligations.StepKeepsTheInvariant : Prop :=
  ∀ s t : State, Inv s → step s = .next t → Inv t

/-- 70_reset_and_hazards.md R181 and 60_exceptions.md R143: from every state that meets the invariant the step answers a
next state; the model's own stops (log entry 6) are never reached. -/
def Obligations.EveryStepAnswers : Prop :=
  ∀ s : State, Inv s → ∃ t, step s = .next t

/-- 70_reset_and_hazards.md R181, 30_encoding.md R63: a finite list of inputs always runs to its end, with one response
for each of its commands after the responses already sent. -/
def Obligations.EveryRunEndsWithAllAnswered : Prop :=
  ∀ s : State, Inv s →
    ∃ t, Host.Core.run Sys2Proof.core s.pending.length s = .next t ∧ Inv t ∧ t.pending = [] ∧
      ∃ rs, t.responses = s.responses ++ rs ∧ rs.length = commandsIn s.pending

/-- 20_memory.md R53: after any list of commands that raised no fault, every slot holds the value of the latest PACK or
SET to it, or what it held before if there is none. -/
def Obligations.EverySlotHoldsTheLatestStore : Prop :=
  ∀ (s t : State) (words : List CmdWord),
    Running s → s.pending = words.map .command →
    Host.Core.run Sys2Proof.core words.length s = .next t → t.faultCause = .noFault →
      ∀ slot, slot < s.slotCount → ∃ before after : Value,
        codecRead s.buf s.bits slot = .ok before ∧ codecRead t.buf t.bits slot = .ok after ∧
        after.toNat = (lastStored s.sizeX s.sizeZ slot words).getD before.toNat

/-! ### The byte image -/

/-- 20_memory.md R52: the byte image has L bytes, and the host computes each from reads of slots at the declared
width. -/
def Obligations.ByteImageIsComputedFromReads : Prop :=
  ∀ s : State, Running s →
    s.buf.image.length = s.bufferLength ∧
    (s.bits = 8#8 → ∀ i, i < s.slotCount → ∃ v, codecRead s.buf s.bits i = .ok v ∧
      s.buf.image[i]? = some (v.extractLsb' 0 8)) ∧
    (s.bits = 16#8 → ∀ i, i < s.slotCount → ∃ v, codecRead s.buf s.bits i = .ok v ∧
      s.buf.image[2 * i]? = some (v.extractLsb' 0 8) ∧
      s.buf.image[2 * i + 1]? = some (v.extractLsb' 8 8)) ∧
    (s.bits = 4#8 → ∀ i, 2 * i + 1 < s.slotCount → ∃ v w, codecRead s.buf s.bits (2 * i) = .ok v ∧
      codecRead s.buf s.bits (2 * i + 1) = .ok w ∧
      s.buf.image[i]? = some (BitVec.ofNat 8 (v.toNat + 16 * w.toNat))) ∧
    (s.bits = 4#8 → s.slotCount % 2 = 1 → ∃ v, codecRead s.buf s.bits (s.slotCount - 1) = .ok v ∧
      s.buf.image[s.bufferLength - 1]? = some (v.extractLsb' 0 8))

/-- 20_memory.md R52: the PACK commands of a byte image whose pad nibble is zero load exactly that image, and raise no
fault. -/
def Obligations.LoadingAByteImageReproducesIt : Prop :=
  ∀ (s : State) (image : Memory),
    Running s → image.wf → image.len = s.bufferLength →
    (s.bits = 4#8 → s.slotCount % 2 = 1 →
      (lookupCell (s.bufferLength - 1) image.cells).extractLsb' 4 4 = 0#4) →
    s.pending = (loadCommands s.bits image s.slotCount).map .command →
      ∃ t, Host.Core.run Sys2Proof.core s.slotCount s = .next t ∧ t.faultCause = .noFault ∧
        t.buf = image

end
end

