-- ==== Sys2Proof/Laws/Memory.lean ====
section
/-! SUPPORT. The buffer as bytes: a write is read back, leaves every other byte alone and keeps the canonical form,
and two buffers in canonical form that read alike are equal. -/

namespace Sys2Proof.Machine

/-- The cells are in rising address order. -/
abbrev Rising (cells : List Host.Cell) : Prop := cells.Pairwise (fun p q => p.1 < q.1)

theorem lookupCell_eq_unlisted {a : Nat} {cells : List Host.Cell} (h : ∀ p ∈ cells, p.1 ≠ a) :
    lookupCell a cells = Config.unlistedByte := by
  induction cells with
  | nil => rfl
  | cons p rest ih =>
    have hp : a ≠ p.1 := fun e => h p (by simp) e.symm
    rw [lookupCell, if_neg hp]
    exact ih fun q hq => h q (by simp [hq])

theorem lookupCell_below {a : Nat} {p : Host.Cell} {rest : List Host.Cell}
    (h : Rising (p :: rest)) (ha : a < p.1) : lookupCell a (p :: rest) = Config.unlistedByte := by
  refine lookupCell_eq_unlisted fun q hq => ?_
  rcases List.mem_cons.mp hq with rfl | hq
  · omega
  · have := (List.pairwise_cons.mp h).1 q hq
    omega

/-- The cell of a listed byte. -/
theorem lookupCell_of_mem {cells : List Host.Cell} (h : Rising cells) {p : Host.Cell}
    (hp : p ∈ cells) : lookupCell p.1 cells = p.2 := by
  induction cells with
  | nil => cases hp
  | cons q rest ih =>
    rw [lookupCell]
    rcases List.mem_cons.mp hp with rfl | hp
    · simp
    · have := (List.pairwise_cons.mp h).1 p hp
      rw [if_neg (by omega)]
      exact ih (List.pairwise_cons.mp h).2 hp

theorem mem_putCell {a : Nat} {b : Byte} {cells : List Host.Cell} {p : Host.Cell}
    (hp : p ∈ putCell a b cells) : p ∈ cells ∨ (p = (a, b) ∧ b ≠ Config.unlistedByte) := by
  induction cells with
  | nil =>
    unfold putCell at hp
    split at hp <;> simp_all
  | cons q rest ih =>
    unfold putCell at hp
    split at hp
    · split at hp
      · exact .inl hp
      · rcases List.mem_cons.mp hp with rfl | hp
        · exact .inr ⟨rfl, by assumption⟩
        · exact .inl hp
    · split at hp
      · split at hp
        · exact .inl (by simp [hp])
        · rcases List.mem_cons.mp hp with rfl | hp
          · exact .inr ⟨rfl, by assumption⟩
          · exact .inl (by simp [hp])
      · rcases List.mem_cons.mp hp with rfl | hp
        · exact .inl (by simp)
        · rcases ih hp with hp | hp
          · exact .inl (by simp [hp])
          · exact .inr hp

theorem putCell_rising {a : Nat} {b : Byte} {cells : List Host.Cell} (h : Rising cells) :
    Rising (putCell a b cells) := by
  induction cells with
  | nil =>
    unfold putCell
    split <;> simp [Rising]
  | cons q rest ih =>
    obtain ⟨hq, hrest⟩ := List.pairwise_cons.mp h
    unfold putCell
    split
    · split
      · exact h
      · refine List.pairwise_cons.mpr ⟨fun p hp => ?_, h⟩
        rcases List.mem_cons.mp hp with rfl | hp
        · assumption
        · have := hq p hp
          simp only
          omega
    · split
      · split
        · exact hrest
        · refine List.pairwise_cons.mpr ⟨fun p hp => ?_, hrest⟩
          have := hq p hp
          simp only
          omega
      · refine List.pairwise_cons.mpr ⟨fun p hp => ?_, ih hrest⟩
        rcases mem_putCell hp with hp | ⟨rfl, -⟩
        · exact hq p hp
        · simp only
          omega

/-- Reading back the byte that was put. -/
theorem lookupCell_putCell_same {a : Nat} {b : Byte} {cells : List Host.Cell} (h : Rising cells) :
    lookupCell a (putCell a b cells) = b := by
  induction cells with
  | nil =>
    unfold putCell
    split <;> simp_all [lookupCell]
  | cons q rest ih =>
    obtain ⟨hq, hrest⟩ := List.pairwise_cons.mp h
    unfold putCell
    split
    · split
      · rw [lookupCell_below h (by assumption)]
        exact Eq.symm (by assumption)
      · simp [lookupCell]
    · split
      · split
        · rw [lookupCell_eq_unlisted fun p hp => by have := hq p hp; omega]
          exact Eq.symm (by assumption)
        · simp [lookupCell]
      · rw [lookupCell, if_neg (by assumption)]
        exact ih hrest

/-- Putting a byte leaves every other address alone. -/
theorem lookupCell_putCell_other {a a' : Nat} {b : Byte} {cells : List Host.Cell} (h : a' ≠ a) :
    lookupCell a' (putCell a b cells) = lookupCell a' cells := by
  induction cells with
  | nil =>
    unfold putCell
    split <;> simp [lookupCell, h]
  | cons q rest ih =>
    unfold putCell
    split
    · split
      · rfl
      · rw [lookupCell, if_neg h]
    · split
      · rename_i e
        split
        · rw [lookupCell, if_neg (by omega)]
        · rw [lookupCell, lookupCell, if_neg h, if_neg (by omega)]
      · rw [lookupCell, lookupCell, ih]

/-- Two rising lists of bytes that are not the unlisted byte are equal if they read alike. -/
theorem cells_ext {l₁ l₂ : List Host.Cell} (h₁ : Rising l₁) (h₂ : Rising l₂)
    (n₁ : ∀ p ∈ l₁, p.2 ≠ Config.unlistedByte) (n₂ : ∀ p ∈ l₂, p.2 ≠ Config.unlistedByte)
    (h : ∀ a, lookupCell a l₁ = lookupCell a l₂) : l₁ = l₂ := by
  induction l₁ generalizing l₂ with
  | nil =>
    cases l₂ with
    | nil => rfl
    | cons q rest =>
      exact absurd ((lookupCell_of_mem h₂ (by simp)).symm.trans (h q.1).symm) (n₂ q (by simp))
  | cons p r₁ ih =>
    have hp := lookupCell_of_mem h₁ (p := p) (by simp)
    cases l₂ with
    | nil => exact absurd (hp.symm.trans (h p.1)) (n₁ p (by simp))
    | cons q r₂ =>
      have hq := lookupCell_of_mem h₂ (p := q) (by simp)
      have e : p.1 = q.1 := by
        rcases Nat.lt_trichotomy p.1 q.1 with hlt | he | hlt
        · exact absurd (hp.symm.trans ((h p.1).trans (lookupCell_below h₂ hlt))) (n₁ p (by simp))
        · exact he
        · exact absurd (hq.symm.trans ((h q.1).symm.trans (lookupCell_below h₁ hlt))) (n₂ q (by simp))
      have epq : p = q := Prod.ext e (by rw [← hp, ← hq, ← e]; exact h p.1)
      subst epq
      obtain ⟨b₁, t₁⟩ := List.pairwise_cons.mp h₁
      obtain ⟨b₂, t₂⟩ := List.pairwise_cons.mp h₂
      refine congrArg (p :: ·) (ih t₁ t₂ (fun x hx => n₁ x (by simp [hx]))
        (fun x hx => n₂ x (by simp [hx])) fun a => ?_)
      by_cases ha : a = p.1
      · rw [lookupCell_eq_unlisted fun x hx => by have := b₁ x hx; omega,
          lookupCell_eq_unlisted fun x hx => by have := b₂ x hx; omega]
      · have := h a
        rwa [lookupCell, lookupCell, if_neg ha, if_neg ha] at this

/-- Two buffers in canonical form, of one length, that read alike at every address are equal. -/
theorem Memory.ext_of_wf {m₁ m₂ : Memory} (h₁ : m₁.wf) (h₂ : m₂.wf) (hl : m₁.len = m₂.len)
    (h : ∀ a, lookupCell a m₁.cells = lookupCell a m₂.cells) : m₁ = m₂ := by
  have := cells_ext h₁.1 h₂.1 (fun p hp => (h₁.2 p hp).2) (fun p hp => (h₂.2 p hp).2) h
  cases m₁; cases m₂; simp_all

theorem Memory.read_eq_ok {m : Memory} {a : Nat} (h : a < m.len) :
    m.read a = .ok (lookupCell a m.cells) := if_pos h

theorem Memory.read_eq_error {m : Memory} {a : Nat} (h : m.len ≤ a) :
    m.read a = .error (.noSuchByte a) := if_neg (by omega)

/-- Everything a read can answer. -/
theorem Memory.read_ok_iff {m : Memory} {a : Nat} {b : Byte} :
    m.read a = .ok b ↔ a < m.len ∧ lookupCell a m.cells = b := by
  unfold Memory.read
  split <;> simp_all

/-- Bytes at the length and above read as unlisted: no cell lists them. -/
theorem Memory.lookup_beyond {m : Memory} (h : m.wf) {a : Nat} (ha : m.len ≤ a) :
    lookupCell a m.cells = Config.unlistedByte :=
  lookupCell_eq_unlisted fun p hp => by have := (h.2 p hp).1; omega

theorem Memory.write_eq_ok {m : Memory} {a : Nat} {b : Byte} (h : a < m.len) :
    m.write a b = .ok { m with cells := putCell a b m.cells } := if_pos h

/-- Everything a write can do: the address exists, the length stays, the canonical form is kept, the byte is the one
written and every other byte is as before. -/
theorem Memory.write_spec {m m' : Memory} {a : Nat} {b : Byte} (h : m.write a b = .ok m')
    (hm : m.wf) :
    a < m.len ∧ m'.len = m.len ∧ m'.wf ∧
      ∀ a', lookupCell a' m'.cells = if a' = a then b else lookupCell a' m.cells := by
  unfold Memory.write at h
  split at h
  · rename_i ha
    cases h
    refine ⟨ha, rfl, ⟨putCell_rising hm.1, fun p hp => ?_⟩, fun a' => ?_⟩
    · rcases mem_putCell hp with hp | ⟨rfl, hb⟩
      · exact hm.2 p hp
      · exact ⟨ha, hb⟩
    · split
      · subst a'
        exact lookupCell_putCell_same hm.1
      · exact lookupCell_putCell_other (by assumption)
  · cases h

theorem Memory.zeroed_wf (len : Nat) : (Memory.zeroed len).wf :=
  ⟨List.Pairwise.nil, fun _ hp => nomatch hp⟩

@[simp] theorem Memory.zeroed_len (len : Nat) : (Memory.zeroed len).len = len := rfl

@[simp] theorem Memory.zeroed_lookup (len a : Nat) :
    lookupCell a (Memory.zeroed len).cells = Config.unlistedByte := rfl

/-- A 16-bit read answers the two bytes, the less significant one at the lower address (R11). -/
theorem Memory.read16_eq_ok {m : Memory} {a : Nat} (h : a + 1 < m.len) :
    m.read16 a = .ok (lookupCell (a + 1) m.cells ++ lookupCell a m.cells) := by
  unfold Memory.read16
  rw [Memory.read_eq_ok (by omega), Memory.read_eq_ok h]

/-- Everything a 16-bit write can do. -/
theorem Memory.write16_spec {m m' : Memory} {a : Nat} {v : BitVec 16} (h : m.write16 a v = .ok m')
    (hm : m.wf) :
    a + 1 < m.len ∧ m'.len = m.len ∧ m'.wf ∧
      ∀ a', lookupCell a' m'.cells =
        if a' = a + 1 then v.extractLsb' 8 8
        else if a' = a then v.extractLsb' 0 8 else lookupCell a' m.cells := by
  unfold Memory.write16 at h
  split at h
  · cases h
  · rename_i m₁ h₁
    obtain ⟨-, l₁, w₁, r₁⟩ := Memory.write_spec h₁ hm
    obtain ⟨b₂, l₂, w₂, r₂⟩ := Memory.write_spec h w₁
    refine ⟨by omega, by omega, w₂, fun a' => ?_⟩
    rw [r₂, r₁]

theorem Memory.write16_eq_ok {m : Memory} {a : Nat} {v : BitVec 16} (h : a + 1 < m.len) :
    ∃ m', m.write16 a v = .ok m' := by
  unfold Memory.write16
  rw [Memory.write_eq_ok (by omega)]
  exact ⟨_, Memory.write_eq_ok h⟩

end Sys2Proof.Machine
end

