-- ==== Sys2Proof/Laws/Codec.lean ====
section
/-! SUPPORT. What the codec can do at each width (20_memory.md R45, R46): the bytes a read answers from, and
everything a write changes. -/

namespace Sys2Proof.Machine

/-- A codec operation that answers has one of the three widths. -/
theorem codecWrite_width {m m' : Memory} {bits : BitVec 8} {slot : Nat} {v : Value}
    (h : codecWrite m bits slot v = .ok m') : bits = 4#8 ∨ bits = 8#8 ∨ bits = 16#8 := by
  unfold codecWrite at h
  split at h
  · exact .inl (BitVec.eq_of_toNat_eq (by simpa))
  · exact .inr (.inl (BitVec.eq_of_toNat_eq (by simpa)))
  · exact .inr (.inr (BitVec.eq_of_toNat_eq (by simpa)))
  · cases h

theorem codecRead_width {m : Memory} {bits : BitVec 8} {slot : Nat} {v : Value}
    (h : codecRead m bits slot = .ok v) : bits = 4#8 ∨ bits = 8#8 ∨ bits = 16#8 := by
  unfold codecRead at h
  split at h
  · exact .inl (BitVec.eq_of_toNat_eq (by simpa))
  · exact .inr (.inl (BitVec.eq_of_toNat_eq (by simpa)))
  · exact .inr (.inr (BitVec.eq_of_toNat_eq (by simpa)))
  · cases h

theorem codecRead_4 (m : Memory) (slot : Nat) : codecRead m 4#8 slot =
    if slot / 2 < m.len then .ok ((nibbleOf slot (lookupCell (slot / 2) m.cells)).setWidth 16)
    else .error (.noSuchByte (slot / 2)) := by
  unfold codecRead Memory.read
  by_cases h : slot / 2 < m.len <;> simp [h]

theorem codecRead_8 (m : Memory) (slot : Nat) : codecRead m 8#8 slot =
    if slot < m.len then .ok ((lookupCell slot m.cells).setWidth 16)
    else .error (.noSuchByte slot) := by
  unfold codecRead Memory.read
  by_cases h : slot < m.len <;> simp [h]

theorem codecRead_16 (m : Memory) (slot : Nat) : codecRead m 16#8 slot = m.read16 (2 * slot) := by
  simp [codecRead]

theorem codecRead_16_eq_ok {m : Memory} {slot : Nat} (h : 2 * slot + 1 < m.len) :
    codecRead m 16#8 slot =
      .ok (lookupCell (2 * slot + 1) m.cells ++ lookupCell (2 * slot) m.cells) := by
  rw [codecRead_16, Memory.read16_eq_ok h]

/-- The bytes a slot lies in exist (R51). -/
def slotExists (m : Memory) (bits : BitVec 8) (slot : Nat) : Prop :=
  (bits = 4#8 ∧ slot / 2 < m.len) ∨ (bits = 8#8 ∧ slot < m.len) ∨
    (bits = 16#8 ∧ 2 * slot + 1 < m.len)

/-- The value that a slot's bytes hold. -/
def slotValue (m : Memory) (bits : BitVec 8) (slot : Nat) : Value :=
  if bits = 4#8 then (nibbleOf slot (lookupCell (slot / 2) m.cells)).setWidth 16
  else if bits = 8#8 then (lookupCell slot m.cells).setWidth 16
  else lookupCell (2 * slot + 1) m.cells ++ lookupCell (2 * slot) m.cells

/-- A read answers the slot's value exactly where the slot exists. -/
theorem codecRead_ok_iff {m : Memory} {bits : BitVec 8} {slot : Nat} {v : Value} :
    codecRead m bits slot = .ok v ↔ slotExists m bits slot ∧ slotValue m bits slot = v := by
  constructor
  · intro h
    rcases codecRead_width h with rfl | rfl | rfl
    · rw [codecRead_4] at h
      split at h <;> simp_all [slotExists, slotValue]
    · rw [codecRead_8] at h
      split at h <;> simp_all [slotExists, slotValue]
    · rw [codecRead_16, Memory.read16] at h
      split at h
      · cases h
      · rename_i lo hlo
        split at h
        · cases h
        · rename_i hi hhi
          rw [Memory.read_ok_iff] at hlo hhi
          obtain ⟨-, rfl⟩ := hlo
          obtain ⟨hb, rfl⟩ := hhi
          cases h
          exact ⟨.inr (.inr ⟨rfl, hb⟩), by simp [slotValue]⟩
  · rintro ⟨⟨rfl, h⟩ | ⟨rfl, h⟩ | ⟨rfl, h⟩, rfl⟩
    · rw [codecRead_4, if_pos h]; rfl
    · rw [codecRead_8, if_pos h]; rfl
    · rw [codecRead_16_eq_ok h]; rfl

/-- A write answers exactly where the slot exists. -/
theorem codecWrite_eq_ok {m : Memory} {bits : BitVec 8} {slot : Nat} (v : Value)
    (h : slotExists m bits slot) : ∃ m', codecWrite m bits slot v = .ok m' := by
  rcases h with ⟨rfl, h⟩ | ⟨rfl, h⟩ | ⟨rfl, h⟩
  · exact ⟨_, by simp [codecWrite, Memory.read_eq_ok h, Memory.write_eq_ok h]; rfl⟩
  · exact ⟨_, by simp [codecWrite, Memory.write_eq_ok h]; rfl⟩
  · obtain ⟨m', hm'⟩ := Memory.write16_eq_ok (v := v) h
    exact ⟨m', by simp [codecWrite, hm']⟩

/-- Everything a 4-bit write can do. -/
theorem codecWrite_4_spec {m m' : Memory} {slot : Nat} {v : Value}
    (h : codecWrite m 4#8 slot v = .ok m') (hm : m.wf) :
    slot / 2 < m.len ∧ m'.len = m.len ∧ m'.wf ∧
      ∀ a, lookupCell a m'.cells =
        if a = slot / 2 then withNibble slot (lookupCell (slot / 2) m.cells) v
        else lookupCell a m.cells := by
  simp [codecWrite] at h
  split at h
  · cases h
  · rename_i b hb
    rw [Memory.read_ok_iff] at hb
    obtain ⟨-, rfl⟩ := hb
    exact Memory.write_spec h hm

/-- Everything an 8-bit write can do. -/
theorem codecWrite_8_spec {m m' : Memory} {slot : Nat} {v : Value}
    (h : codecWrite m 8#8 slot v = .ok m') (hm : m.wf) :
    slot < m.len ∧ m'.len = m.len ∧ m'.wf ∧
      ∀ a, lookupCell a m'.cells = if a = slot then v.setWidth 8 else lookupCell a m.cells :=
  Memory.write_spec (by simpa [codecWrite] using h) hm

/-- Everything a 16-bit write can do. -/
theorem codecWrite_16_spec {m m' : Memory} {slot : Nat} {v : Value}
    (h : codecWrite m 16#8 slot v = .ok m') (hm : m.wf) :
    2 * slot + 1 < m.len ∧ m'.len = m.len ∧ m'.wf ∧
      ∀ a, lookupCell a m'.cells =
        if a = 2 * slot + 1 then v.extractLsb' 8 8
        else if a = 2 * slot then v.extractLsb' 0 8 else lookupCell a m.cells :=
  Memory.write16_spec (by simpa [codecWrite] using h) hm

/-- Any write keeps the length and the canonical form, and the slot exists. -/
theorem codecWrite_keeps {m m' : Memory} {bits : BitVec 8} {slot : Nat} {v : Value}
    (h : codecWrite m bits slot v = .ok m') (hm : m.wf) :
    m'.len = m.len ∧ m'.wf ∧ slotExists m bits slot := by
  rcases codecWrite_width h with rfl | rfl | rfl
  · obtain ⟨b, l, w, -⟩ := codecWrite_4_spec h hm
    exact ⟨l, w, .inl ⟨rfl, b⟩⟩
  · obtain ⟨b, l, w, -⟩ := codecWrite_8_spec h hm
    exact ⟨l, w, .inr (.inl ⟨rfl, b⟩)⟩
  · obtain ⟨b, l, w, -⟩ := codecWrite_16_spec h hm
    exact ⟨l, w, .inr (.inr ⟨rfl, b⟩)⟩

/-- A byte's nibble is the one just put there. -/
theorem nibbleOf_withNibble_same (slot : Nat) (b : Byte) (v : Value) :
    nibbleOf slot (withNibble slot b v) = v.setWidth 4 := by
  unfold nibbleOf withNibble
  split <;> ext i hi <;> interval_cases i <;> simp

/-- The other nibble of the byte is kept (R46). -/
theorem nibbleOf_withNibble_other {slot other : Nat} (b : Byte) (v : Value)
    (h : other % 2 ≠ slot % 2) (hv : v.toNat < 16) :
    nibbleOf other (withNibble slot b v) = nibbleOf other b := by
  have hbit : ∀ i (h : i < 16), 4 ≤ i → v[i] = false := fun i h hi => by
    rw [← BitVec.getLsbD_eq_getElem]
    exact Nat.testBit_lt_two_pow (Nat.lt_of_lt_of_le hv (Nat.pow_le_pow_right (n := 2) (by omega) hi))
  unfold nibbleOf withNibble
  by_cases hs : slot % 2 = 0
  · rw [if_neg (by omega), if_pos hs, if_neg (by omega)]
    ext i hi; interval_cases i <;> simp [hbit]
  · rw [if_pos (by omega), if_neg hs, if_pos (by omega)]
    ext i hi; interval_cases i <;> simp

end Sys2Proof.Machine
end

