-- ==== Sys2Proof/Laws/State.lean ====
section
/-! SUPPORT. One lemma per field per update of the state, each true by rfl, so that no later proof unfolds a record
update. -/

namespace Sys2Proof.Machine

section respond
variable (s : State) (status : BitVec 8) (data : Value)

@[simp] theorem State.respond_sizeX : (s.respond status data).sizeX = s.sizeX := rfl
@[simp] theorem State.respond_sizeY : (s.respond status data).sizeY = s.sizeY := rfl
@[simp] theorem State.respond_sizeZ : (s.respond status data).sizeZ = s.sizeZ := rfl
@[simp] theorem State.respond_bits : (s.respond status data).bits = s.bits := rfl
@[simp] theorem State.respond_buf : (s.respond status data).buf = s.buf := rfl
@[simp] theorem State.respond_faultCause : (s.respond status data).faultCause = s.faultCause := rfl
@[simp] theorem State.respond_faultInfo : (s.respond status data).faultInfo = s.faultInfo := rfl
@[simp] theorem State.respond_capBytes : (s.respond status data).capBytes = s.capBytes := rfl
@[simp] theorem State.respond_pending : (s.respond status data).pending = s.pending := rfl
@[simp] theorem State.respond_responses :
    (s.respond status data).responses = s.responses ++ [responseWord status data] := rfl

end respond

section respondHalted
variable (s : State)

@[simp] theorem State.respondHalted_sizeX : s.respondHalted.sizeX = s.sizeX := rfl
@[simp] theorem State.respondHalted_sizeY : s.respondHalted.sizeY = s.sizeY := rfl
@[simp] theorem State.respondHalted_sizeZ : s.respondHalted.sizeZ = s.sizeZ := rfl
@[simp] theorem State.respondHalted_bits : s.respondHalted.bits = s.bits := rfl
@[simp] theorem State.respondHalted_buf : s.respondHalted.buf = s.buf := rfl
@[simp] theorem State.respondHalted_faultCause : s.respondHalted.faultCause = s.faultCause := rfl
@[simp] theorem State.respondHalted_faultInfo : s.respondHalted.faultInfo = s.faultInfo := rfl
@[simp] theorem State.respondHalted_capBytes : s.respondHalted.capBytes = s.capBytes := rfl
@[simp] theorem State.respondHalted_pending : s.respondHalted.pending = s.pending := rfl
@[simp] theorem State.respondHalted_responses :
    s.respondHalted.responses = s.responses ++ [responseWord statusHalted 0x0000#16] := rfl

end respondHalted

section raiseFault
variable (s : State) (cause : Cause) (cmd : CmdWord)

@[simp] theorem State.raiseFault_sizeX : (s.raiseFault cause cmd).sizeX = s.sizeX := rfl
@[simp] theorem State.raiseFault_sizeY : (s.raiseFault cause cmd).sizeY = s.sizeY := rfl
@[simp] theorem State.raiseFault_sizeZ : (s.raiseFault cause cmd).sizeZ = s.sizeZ := rfl
@[simp] theorem State.raiseFault_bits : (s.raiseFault cause cmd).bits = s.bits := rfl
@[simp] theorem State.raiseFault_buf : (s.raiseFault cause cmd).buf = s.buf := rfl
@[simp] theorem State.raiseFault_faultCause : (s.raiseFault cause cmd).faultCause = cause := rfl
@[simp] theorem State.raiseFault_faultInfo : (s.raiseFault cause cmd).faultInfo = cmd := rfl
@[simp] theorem State.raiseFault_capBytes : (s.raiseFault cause cmd).capBytes = s.capBytes := rfl
@[simp] theorem State.raiseFault_pending : (s.raiseFault cause cmd).pending = s.pending := rfl
@[simp] theorem State.raiseFault_responses :
    (s.raiseFault cause cmd).responses = s.responses ++ [responseWord cause.code 0x0000#16] := rfl

end raiseFault

section applyReset
variable (s : State) (st : Straps)

@[simp] theorem State.applyReset_sizeX : (s.applyReset st).sizeX = st.sizeX := rfl
@[simp] theorem State.applyReset_sizeY : (s.applyReset st).sizeY = st.sizeY := rfl
@[simp] theorem State.applyReset_sizeZ : (s.applyReset st).sizeZ = st.sizeZ := rfl
@[simp] theorem State.applyReset_bits : (s.applyReset st).bits = st.bits := rfl
@[simp] theorem State.applyReset_buf : (s.applyReset st).buf =
    Memory.zeroed (if resetCause s.capBytes st = .noFault then st.bufferLength else 0) := rfl
@[simp] theorem State.applyReset_faultCause :
    (s.applyReset st).faultCause = resetCause s.capBytes st := rfl
@[simp] theorem State.applyReset_faultInfo : (s.applyReset st).faultInfo = 0#80 := rfl
@[simp] theorem State.applyReset_capBytes : (s.applyReset st).capBytes = s.capBytes := rfl
@[simp] theorem State.applyReset_pending : (s.applyReset st).pending = s.pending := rfl
@[simp] theorem State.applyReset_responses : (s.applyReset st).responses = s.responses := rfl
@[simp] theorem State.applyReset_slotCount :
    (s.applyReset st).slotCount = voxelCount st.sizeX st.sizeY st.sizeZ := rfl
@[simp] theorem State.applyReset_bufferLength :
    (s.applyReset st).bufferLength = st.bufferLength := rfl

end applyReset

section withFetchWord
variable (s : State) (nbits w : Nat)

@[simp] theorem State.withFetchWord_pending : (s.withFetchWord nbits w).pending =
    .command (BitVec.ofNat 80 (w % 2 ^ nbits)) :: s.pending := rfl
@[simp] theorem State.withFetchWord_buf : (s.withFetchWord nbits w).buf = s.buf := rfl

end withFetchWord

theorem State.takeEvent_nil {s : State} (h : s.pending = []) : s.takeEvent = none := by
  simp [State.takeEvent, h]

theorem State.takeEvent_cons {s : State} {e : HostEvent} {rest : List HostEvent}
    (h : s.pending = e :: rest) : s.takeEvent = some (e, { s with pending := rest }) := by
  simp [State.takeEvent, h]

/-- Halted is FAULT.CAUSE not being "no fault": the other codes are not zero. -/
theorem State.halted_iff (s : State) : s.halted = true ↔ s.faultCause ≠ .noFault := by
  unfold State.halted State.causeCode
  cases s.faultCause <;> decide

theorem State.halted_eq_false_iff (s : State) : s.halted = false ↔ s.faultCause = .noFault := by
  unfold State.halted State.causeCode
  cases s.faultCause <;> decide

/-- `State.reset` is what the reset step gives with the straps and the capacity of Config (log entries 3, 4). -/
theorem State.reset_eq_applyReset :
    State.reset.applyReset
      { sizeX := Config.resetSizeX, sizeY := Config.resetSizeY, sizeZ := Config.resetSizeZ,
        bits := Config.resetBits } = State.reset := by
  decide

/-- Everything a step can do, by what the host presents. -/
theorem step_cases (s : State) :
    (s.pending = [] ∧ step s = .next s) ∨
    (∃ cmd rest, s.pending = .command cmd :: rest ∧
      step s = runWord cmd { s with pending := rest }) ∨
    (∃ st rest, s.pending = .reset st :: rest ∧
      step s = .next (({ s with pending := rest } : State).applyReset st)) := by
  rcases h : s.pending with _ | ⟨_ | _, rest⟩
  · exact .inl ⟨rfl, by simp [step, State.takeEvent, h]⟩
  · exact .inr (.inl ⟨_, rest, rfl, by simp [step, State.takeEvent, h, runEvent]⟩)
  · exact .inr (.inr ⟨_, rest, rfl, by simp [step, State.takeEvent, h, runEvent]⟩)

end Sys2Proof.Machine
end

