-- ==== Sys2Proof/Laws/Operands.lean ====
section
/-! SUPPORT. The slot arithmetic (20_memory.md R43, R44) and the fact that a slot in range lies in bytes that exist
(R51). -/

namespace Sys2Proof.Machine

open Sys2Proof.Safety

/-- The slot of a coordinate in range is in range (R44). -/
theorem slotOf_lt {sizeX sizeY sizeZ x y z : Nat} (hx : x < sizeX) (hy : y < sizeY)
    (hz : z < sizeZ) : slotOf sizeX sizeZ x y z < sizeX * sizeY * sizeZ := by
  unfold slotOf
  have h₁ : y * sizeZ + z + 1 ≤ sizeY * sizeZ := by
    calc y * sizeZ + z + 1 ≤ y * sizeZ + sizeZ := by omega
      _ = (y + 1) * sizeZ := by ring
      _ ≤ sizeY * sizeZ := Nat.mul_le_mul_right _ hy
  calc (y * sizeZ + z) * sizeX + x < (y * sizeZ + z) * sizeX + sizeX := by omega
    _ = (y * sizeZ + z + 1) * sizeX := by ring
    _ ≤ sizeY * sizeZ * sizeX := Nat.mul_le_mul_right _ h₁
    _ = sizeX * sizeY * sizeZ := by ring

/-! ### What the straps check says (70_reset_and_hazards.md R171) -/

/-- Straps are valid where no dimension is zero and the width is 4, 8 or 16. -/
theorem Straps.valid_iff (st : Straps) : st.valid = true ↔
    1 ≤ st.sizeX.toNat ∧ 1 ≤ st.sizeY.toNat ∧ 1 ≤ st.sizeZ.toNat ∧
      (st.bits = 4#8 ∨ st.bits = 8#8 ∨ st.bits = 16#8) := by
  have hd : ∀ d : Dim, d ≠ 0#16 ↔ 1 ≤ d.toNat := fun d => by
    rw [ne_eq, ← BitVec.toNat_inj]
    simp only [BitVec.toNat_ofNat, Nat.zero_mod]
    omega
  simp only [Straps.valid, widthSupported, Bool.and_eq_true, bne_iff_ne, hd, Bool.or_eq_true,
    beq_iff_eq, and_assoc, or_assoc]

/-- Everything reset can latch. -/
theorem resetCause_cases (capBytes : Nat) (st : Straps) :
    (st.valid = false ∧ resetCause capBytes st = .cfgInvalid) ∨
    (st.valid = true ∧ capBytes < st.bufferLength ∧ resetCause capBytes st = .cfgCapacity) ∨
    (st.valid = true ∧ st.bufferLength ≤ capBytes ∧ resetCause capBytes st = .noFault) := by
  unfold resetCause
  cases h : st.valid
  · exact .inl ⟨rfl, rfl⟩
  · by_cases hc : capBytes < st.bufferLength
    · exact .inr (.inl ⟨rfl, hc, by simp [hc]⟩)
    · exact .inr (.inr ⟨rfl, by omega, by simp [hc]⟩)

/-! ### What each range check says (R66) -/

section checks
variable (s : State)

theorem slotOutOfRange_iff (slot : SlotIndex) : s.slotOutOfRange slot = true ↔
    s.sizeX.toNat * s.sizeY.toNat * s.sizeZ.toNat ≤ slot.toNat := decide_eq_true_iff

theorem valueOutOfRange_iff (v : Value) : s.valueOutOfRange v = true ↔
    2 ^ s.bits.toNat ≤ v.toNat := decide_eq_true_iff

theorem coordOutOfRange_iff (x y z : Dim) : s.coordOutOfRange x y z = true ↔
    s.sizeX.toNat ≤ x.toNat ∨ s.sizeY.toNat ≤ y.toNat ∨ s.sizeZ.toNat ≤ z.toNat := by
  simp [State.coordOutOfRange, or_assoc]

end checks

/-- A slot below N lies in bytes below L, at each width. -/
theorem slotExists_of_lt {m : Memory} {bits : BitVec 8} {n slot : Nat}
    (hb : bits = 4#8 ∨ bits = 8#8 ∨ bits = 16#8) (hl : m.len = packedBytes n bits)
    (h : slot < n) : slotExists m bits slot := by
  unfold packedBytes at hl
  rcases hb with rfl | rfl | rfl
  · exact .inl ⟨rfl, by simp at hl; omega⟩
  · exact .inr (.inl ⟨rfl, by simp at hl; omega⟩)
  · exact .inr (.inr ⟨rfl, by simp at hl; omega⟩)

theorem constructed_slotExists {s : State} (h : Constructed s) {slot : Nat}
    (hs : slot < s.slotCount) : slotExists s.buf s.bits slot :=
  slotExists_of_lt h.2.2.2.1 h.2.2.2.2.1 hs

/-- A coordinate that passes the range check names a slot below N. -/
theorem voxelSlot_lt {s : State} {x y z : Dim} (h : s.coordOutOfRange x y z = false) :
    s.voxelSlot x y z < s.slotCount := by
  simp [State.coordOutOfRange] at h
  exact slotOf_lt h.1.1 h.1.2 h.2

end Sys2Proof.Machine
end

