-- ==== Sys2Proof/Laws/Commands.lean ====
section
/-! SUPPORT. What a command can do: the frame that all commands share, each meaning inverted once, and the order of
checks read from the bits of a command's word. -/

namespace Sys2Proof.Machine

open Sys2Proof.Safety

/-! ### The frame of every command (30_encoding.md R66) -/

section guarded
variable {cmd : CmdWord} {checks : List (Bool × Cause)} {s : State}
  {effect : Host.Outcome State Fault Refusal}

theorem guarded_halted (h : s.halted = true) :
    guarded cmd checks s effect = .next s.respondHalted := by
  simp [guarded, h]

theorem guarded_violation (h : s.halted = false) {cause : Cause}
    (hv : firstViolation checks = some cause) :
    guarded cmd checks s effect = .next (s.raiseFault cause cmd) := by
  simp [guarded, h, hv]

theorem guarded_clear (h : s.halted = false) (hv : firstViolation checks = none) :
    guarded cmd checks s effect = effect := by
  simp [guarded, h, hv]

/-- Everything the frame can answer. -/
theorem guarded_cases (cmd : CmdWord) (checks : List (Bool × Cause)) (s : State)
    (effect : Host.Outcome State Fault Refusal) :
    (s.halted = true ∧ guarded cmd checks s effect = .next s.respondHalted) ∨
    (∃ cause, s.halted = false ∧ firstViolation checks = some cause ∧
      guarded cmd checks s effect = .next (s.raiseFault cause cmd)) ∨
    (s.halted = false ∧ firstViolation checks = none ∧ guarded cmd checks s effect = effect) := by
  cases h : s.halted
  · cases hv : firstViolation checks with
    | none => exact .inr (.inr ⟨rfl, rfl, guarded_clear h hv⟩)
    | some cause => exact .inr (.inl ⟨cause, rfl, rfl, guarded_violation h hv⟩)
  · exact .inl ⟨rfl, guarded_halted h⟩

end guarded

@[simp] theorem firstViolation_nil : firstViolation [] = none := rfl

@[simp] theorem firstViolation_cons_eq_none {b : Bool} {k : Cause} {rest : List (Bool × Cause)} :
    firstViolation ((b, k) :: rest) = none ↔ b = false ∧ firstViolation rest = none := by
  cases b <;> simp [firstViolation]

@[simp] theorem firstViolation_cons_eq_some {b : Bool} {k cause : Cause}
    {rest : List (Bool × Cause)} :
    firstViolation ((b, k) :: rest) = some cause ↔
      (b = true ∧ k = cause) ∨ (b = false ∧ firstViolation rest = some cause) := by
  cases b <;> simp [firstViolation]

/-- A cause that a list of checks answers is one of the list's. -/
theorem firstViolation_mem {checks : List (Bool × Cause)} {cause : Cause}
    (h : firstViolation checks = some cause) : cause ∈ checks.map Prod.snd := by
  induction checks with
  | nil => cases h
  | cons p rest ih =>
    obtain ⟨b, k⟩ := p
    rcases firstViolation_cons_eq_some.mp h with ⟨-, rfl⟩ | ⟨-, h⟩
    · exact List.mem_cons_self
    · exact List.mem_cons_of_mem _ (ih h)

/-! ### Each meaning as checks and an effect -/

/-- The checks of a command, in order (R81, R83, R91, R93, R101 to R103). -/
def checksOf (s : State) : Instr → List (Bool × Cause)
  | .pack w slot v =>
    [(w != s.bits, .widthMismatch), (s.slotOutOfRange slot, .slotRange),
      (s.valueOutOfRange v, .valueRange)]
  | .unpack w slot v =>
    [(v != 0#16, .reservedField), (w != s.bits, .widthMismatch), (s.slotOutOfRange slot, .slotRange)]
  | .set w x y z v =>
    [(w != 0#8, .reservedField), (s.coordOutOfRange x y z, .coordRange),
      (s.valueOutOfRange v, .valueRange)]
  | .get w x y z v =>
    [(w != 0#8 || v != 0#16, .reservedField), (s.coordOutOfRange x y z, .coordRange)]
  | .sizex w a b c v | .sizey w a b c v | .sizez w a b c v =>
    [(w != 0#8 || a != 0#16 || b != 0#16 || c != 0#16 || v != 0#16, .reservedField)]

/-- The effect of a command whose checks are all clear. -/
def effectOf (s : State) : Instr → Host.Outcome State Fault Refusal
  | .pack _ slot v => storeSlot slot.toNat v s
  | .unpack _ slot _ => answerSlot slot.toNat s
  | .set _ x y z v => storeSlot (s.voxelSlot x y z) v s
  | .get _ x y z _ => answerSlot (s.voxelSlot x y z) s
  | .sizex _ _ _ _ _ => .next (s.respond statusOk s.sizeX)
  | .sizey _ _ _ _ _ => .next (s.respond statusOk s.sizeY)
  | .sizez _ _ _ _ _ => .next (s.respond statusOk s.sizeZ)

/-- Every meaning is the common frame around its checks and its effect. -/
theorem exec_eq_guarded (i : Instr) (s : State) :
    exec i s = guarded (encode i) (checksOf s i) s (effectOf s i) := by
  cases i <;> rfl

/-- Every cause that a command can raise is one of the six of R141 that commands raise. -/
theorem checksOf_causes {s : State} {i : Instr} {cause : Cause}
    (h : firstViolation (checksOf s i) = some cause) :
    cause = .reservedField ∨ cause = .widthMismatch ∨ cause = .slotRange ∨ cause = .coordRange ∨
      cause = .valueRange := by
  have := firstViolation_mem h
  cases i <;> simp [checksOf] at this <;> tauto

/-- Everything PACK and SET can do once their checks are clear. -/
theorem storeSlot_cases {slot : Nat} {v : Value} {s t : State} (h : storeSlot slot v s = .next t) :
    ∃ buf, codecWrite s.buf s.bits slot v = .ok buf ∧
      t = ({ s with buf := buf } : State).respond statusOk 0x0000#16 := by
  unfold storeSlot at h
  split at h
  · cases h
  · cases h
    exact ⟨_, by assumption, rfl⟩

/-- Everything UNPACK and GET can do once their checks are clear. -/
theorem answerSlot_cases {slot : Nat} {s t : State} (h : answerSlot slot s = .next t) :
    ∃ v, codecRead s.buf s.bits slot = .ok v ∧ t = s.respond statusOk v := by
  unfold answerSlot at h
  split at h
  · cases h
  · cases h
    exact ⟨_, by assumption, rfl⟩

theorem storeSlot_eq_next {slot : Nat} (v : Value) {s : State} (h : slotExists s.buf s.bits slot) :
    ∃ buf, codecWrite s.buf s.bits slot v = .ok buf ∧
      storeSlot slot v s = .next (({ s with buf := buf } : State).respond statusOk 0x0000#16) := by
  obtain ⟨buf, hb⟩ := codecWrite_eq_ok v h
  exact ⟨buf, hb, by simp [storeSlot, hb]⟩

theorem answerSlot_eq_next {slot : Nat} {s : State} (h : slotExists s.buf s.bits slot) :
    answerSlot slot s = .next (s.respond statusOk (slotValue s.buf s.bits slot)) := by
  have := codecRead_ok_iff.mpr ⟨h, rfl⟩
  simp [answerSlot, this]

/-- Everything a command can do, if it answers a next state. -/
theorem exec_cases {i : Instr} {s t : State} (h : exec i s = .next t) :
    (s.halted = true ∧ t = s.respondHalted) ∨
    (∃ cause, s.halted = false ∧ firstViolation (checksOf s i) = some cause ∧
      t = s.raiseFault cause (encode i)) ∨
    (s.halted = false ∧ firstViolation (checksOf s i) = none ∧ effectOf s i = .next t) := by
  rw [exec_eq_guarded] at h
  rcases guarded_cases (encode i) (checksOf s i) s (effectOf s i) with
    ⟨h₁, e⟩ | ⟨cause, h₁, hv, e⟩ | ⟨h₁, hv, e⟩
  · rw [e] at h; cases h; exact .inl ⟨h₁, rfl⟩
  · rw [e] at h; cases h; exact .inr (.inl ⟨cause, h₁, hv, rfl⟩)
  · rw [e] at h; exact .inr (.inr ⟨h₁, hv, h⟩)

/-- Everything a command's own effect can change: the buffer, by one codec write, and the response. -/
theorem effectOf_cases {i : Instr} {s t : State} (h : effectOf s i = .next t) :
    (∃ slot v buf, codecWrite s.buf s.bits slot v = .ok buf ∧
      t = ({ s with buf := buf } : State).respond statusOk 0x0000#16) ∨
    (∃ data, t = s.respond statusOk data) := by
  cases i
  case pack => obtain ⟨b, h, e⟩ := storeSlot_cases h; exact .inl ⟨_, _, b, h, e⟩
  case set => obtain ⟨b, h, e⟩ := storeSlot_cases h; exact .inl ⟨_, _, b, h, e⟩
  case unpack => obtain ⟨v, -, e⟩ := answerSlot_cases h; exact .inr ⟨v, e⟩
  case get => obtain ⟨v, -, e⟩ := answerSlot_cases h; exact .inr ⟨v, e⟩
  all_goals cases h; exact .inr ⟨_, rfl⟩

/-- Where the checks of a command are clear and the instance is constructed, its effect answers a next state. -/
theorem effectOf_answers {i : Instr} {s : State} (hc : Constructed s)
    (h : firstViolation (checksOf s i) = none) : ∃ t, effectOf s i = .next t := by
  cases i
  case pack w slot v =>
    have hs : slot.toNat < s.slotCount := by
      simp [checksOf, State.slotOutOfRange] at h; omega
    obtain ⟨b, -, e⟩ := storeSlot_eq_next v (constructed_slotExists hc hs)
    exact ⟨_, e⟩
  case unpack w slot v =>
    have hs : slot.toNat < s.slotCount := by
      simp [checksOf, State.slotOutOfRange] at h; omega
    exact ⟨_, answerSlot_eq_next (constructed_slotExists hc hs)⟩
  case set w x y z v =>
    have hs : s.coordOutOfRange x y z = false := by
      simp [checksOf] at h; exact h.2.1
    obtain ⟨b, -, e⟩ := storeSlot_eq_next v (constructed_slotExists hc (voxelSlot_lt hs))
    exact ⟨_, e⟩
  case get w x y z v =>
    have hs : s.coordOutOfRange x y z = false := by
      simp [checksOf] at h; exact h.2
    exact ⟨_, answerSlot_eq_next (constructed_slotExists hc (voxelSlot_lt hs))⟩
  all_goals exact ⟨_, rfl⟩

end Sys2Proof.Machine
end

