-- ==== Sys2Proof/Laws/CheckOrder.lean ====
section
/-! SUPPORT. The order of checks read from a command's word (`Safety.violation`) and the order the meanings check in
are one (30_encoding.md R66). -/

namespace Sys2Proof.Machine

open Sys2Proof.Safety

theorem and_append {n m : Nat} (x z : BitVec n) (y w : BitVec m) :
    (x ++ y) &&& (z ++ w) = (x &&& z) ++ (y &&& w) := by
  ext i hi
  simp only [BitVec.getElem_and, BitVec.getElem_append]
  split <;> simp

theorem formatC_and (op w : BitVec 8) (a b c v : BitVec 16) (op' w' : BitVec 8)
    (a' b' c' v' : BitVec 16) :
    formatC op w a b c v &&& formatC op' w' a' b' c' v' =
      formatC (op &&& op') (w &&& w') (a &&& a') (b &&& b') (c &&& c') (v &&& v') := by
  unfold formatC
  refine (and_append _ _ _ _).trans ?_
  rw [and_append, and_append, and_append, and_append]

theorem formatC_eq_zero {op w : BitVec 8} {a b c v : BitVec 16} :
    formatC op w a b c v = 0#80 ↔ op = 0#8 ∧ w = 0#8 ∧ a = 0#16 ∧ b = 0#16 ∧ c = 0#16 ∧ v = 0#16 := by
  constructor
  · intro h
    refine ⟨?_, ?_, ?_, ?_, ?_, ?_⟩
    · rw [← fieldOp_formatC op w a b c v, h]; decide
    · rw [← fieldW_formatC op w a b c v, h]; decide
    · rw [← fieldA_formatC op w a b c v, h]; decide
    · rw [← fieldB_formatC op w a b c v, h]; decide
    · rw [← fieldC_formatC op w a b c v, h]; decide
    · rw [← fieldV_formatC op w a b c v, h]; decide
  · rintro ⟨rfl, rfl, rfl, rfl, rfl, rfl⟩
    decide

/-- The must-be-zero bits of each opcode, as fields (R62). -/
theorem mustBeZeroMask_fields :
    mustBeZeroMask 1 = formatC 0#8 0#8 0#16 0#16 0#16 0#16 ∧
    mustBeZeroMask 2 = formatC 0#8 0#8 0#16 0#16 0#16 0xFFFF#16 ∧
    mustBeZeroMask 3 = formatC 0#8 0xFF#8 0#16 0#16 0#16 0#16 ∧
    mustBeZeroMask 4 = formatC 0#8 0xFF#8 0#16 0#16 0#16 0xFFFF#16 ∧
    mustBeZeroMask 5 = formatC 0#8 0xFF#8 0xFFFF#16 0xFFFF#16 0xFFFF#16 0xFFFF#16 ∧
    mustBeZeroMask 6 = formatC 0#8 0xFF#8 0xFFFF#16 0xFFFF#16 0xFFFF#16 0xFFFF#16 ∧
    mustBeZeroMask 7 = formatC 0#8 0xFF#8 0xFFFF#16 0xFFFF#16 0xFFFF#16 0xFFFF#16 := by
  decide

theorem and_FF (x : BitVec 8) : x &&& 0xFF#8 = x := BitVec.and_allOnes
theorem and_FFFF (x : BitVec 16) : x &&& 0xFFFF#16 = x := BitVec.and_allOnes

/-- The opcode of a command's word. -/
theorem opOf_encode (i : Instr) : opOf (encode i) = (opcode i).toNat := by
  cases i <;> simp [encode, opcode, formatSlot]

/-- The must-be-zero test on the word is well-formedness of the command (R62, R64). -/
theorem mustBeZero_encode (i : Instr) :
    encode i &&& mustBeZeroMask (opOf (encode i)) = 0#80 ↔ i.wellFormed = true := by
  obtain ⟨m₁, m₂, m₃, m₄, m₅, m₆, m₇⟩ := mustBeZeroMask_fields
  cases i <;>
    simp [encode, formatSlot, Instr.wellFormed, m₁, m₂, m₃, m₄, m₅, m₆, m₇, formatC_and, formatC_eq_zero,
      and_FF, and_FFFF, and_assoc]

/-- The order of checks on a command's word is the order its meaning checks in. -/
theorem violation_encode (s : State) (i : Instr) :
    violationIn s (encode i) = firstViolation (checksOf s i) := by
  have hop := opOf_encode i
  have hz := mustBeZero_encode i
  have hb : ∀ w : BitVec 8, w.toNat = s.bits.toNat ↔ w = s.bits := fun w =>
    ⟨BitVec.eq_of_toNat_eq, fun h => h ▸ rfl⟩
  unfold violationIn violation
  cases i with
  | pack w slot v =>
    have hs : slotNumber (encode (.pack w slot v)) = slot.toNat := slotNumber_formatSlot ..
    have hw : wOf (encode (.pack w slot v)) = w.toNat := wOf_formatC ..
    have hv : vOf (encode (.pack w slot v)) = v.toNat := vOf_formatC ..
    simp only [ne_eq, hz]
    simp [hop, hs, hw, hv, hb, opcode, Instr.wellFormed, checksOf, firstViolation,
      slotOutOfRange_iff, valueOutOfRange_iff]
  | unpack w slot v =>
    have hs : slotNumber (encode (.unpack w slot v)) = slot.toNat := slotNumber_formatSlot ..
    have hw : wOf (encode (.unpack w slot v)) = w.toNat := wOf_formatC ..
    simp only [ne_eq, hz]
    simp [hop, hs, hw, hb, opcode, Instr.wellFormed, checksOf, firstViolation,
      slotOutOfRange_iff]
  | set w x y z v =>
    have ha : aOf (encode (.set w x y z v)) = x.toNat := aOf_formatC ..
    have hb' : bOf (encode (.set w x y z v)) = y.toNat := bOf_formatC ..
    have hc : cOf (encode (.set w x y z v)) = z.toNat := cOf_formatC ..
    have hv : vOf (encode (.set w x y z v)) = v.toNat := vOf_formatC ..
    simp only [ne_eq, hz]
    simp [hop, ha, hb', hc, hv, opcode, Instr.wellFormed, checksOf, firstViolation,
      coordOutOfRange_iff, valueOutOfRange_iff]
  | get w x y z v =>
    have ha : aOf (encode (.get w x y z v)) = x.toNat := aOf_formatC ..
    have hb' : bOf (encode (.get w x y z v)) = y.toNat := bOf_formatC ..
    have hc : cOf (encode (.get w x y z v)) = z.toNat := cOf_formatC ..
    simp only [ne_eq, hz]
    simp [hop, ha, hb', hc, opcode, Instr.wellFormed, checksOf, firstViolation,
      coordOutOfRange_iff, -not_and, not_and_or]
  | sizex w a b c v | sizey w a b c v | sizez w a b c v =>
    simp only [ne_eq, hz]
    simp [hop, opcode, Instr.wellFormed, checksOf, firstViolation, or_assoc, -not_and, not_and_or]

end Sys2Proof.Machine
end

