-- ==== Sys2Proof/Tests/Slice0.lean ====
section
/-! SUPPORT. Tests: the smoke test of WellFormed, words of the spec decoded, one step of each command with the result
that 95_test_vectors.md gives, and for every statement with hypotheses a concrete case that meets them. -/

namespace Sys2Proof.Tests

open Sys2Proof.Machine Sys2Proof.Safety

/-! ### Small states -/

/-- A freshly reset engine with these straps (95_test_vectors.md, "Straps (a, b, c, w)"). -/
def fresh (x y z : Dim) (bits : BitVec 8) : State :=
  State.reset.applyReset { sizeX := x, sizeY := y, sizeZ := z, bits := bits }

/-- The engine with these cells in its buffer. -/
def holding (s : State) (cells : List Host.Cell) : State := { s with buf := { s.buf with cells := cells } }

/-- The engine with a word presented. -/
def presenting (s : State) (c : CmdWord) : State := { s with pending := [.command c] }

/-- The engine with a reset presented. -/
def resetting (s : State) (x y z : Dim) (bits : BitVec 8) : State :=
  { s with pending := [.reset { sizeX := x, sizeY := y, sizeZ := z, bits := bits }] }

/-- The buffer's cells, the responses and the cause after an outcome; nothing where the model stops. -/
def seen : Host.Outcome State Fault Refusal → Option (List Host.Cell × List RespWord × BitVec 8)
  | .next s => some (s.buf.cells, s.responses, s.causeCode)
  | .fault _ => none
  | .refused _ => none

/-- An engine halted by `SET 0, 0, 0, 0x100` (95_test_vectors.md V-H). -/
def haltedEngine : State :=
  (holding (fresh 2#16 1#16 2#16 8#8) [(3, 0x7F#8)]).raiseFault .valueRange 0x03000000000000000100#80

/-! ### WellFormed refuses a non-zero must-be-zero field (30_encoding.md R62) -/

theorem test_wellFormed_unpack_v : (Instr.unpack 8#8 0#48 1#16).wellFormed = false := by decide
theorem test_wellFormed_set_w : (Instr.set 8#8 0#16 0#16 0#16 1#16).wellFormed = false := by decide
theorem test_wellFormed_get_w : (Instr.get 1#8 0#16 0#16 0#16 0#16).wellFormed = false := by decide
theorem test_wellFormed_get_v : (Instr.get 0#8 0#16 0#16 0#16 1#16).wellFormed = false := by decide
theorem test_wellFormed_sizex :
    (Instr.sizex 1#8 0#16 0#16 0#16 0#16).wellFormed = false ∧
    (Instr.sizex 0#8 1#16 0#16 0#16 0#16).wellFormed = false ∧
    (Instr.sizex 0#8 0#16 1#16 0#16 0#16).wellFormed = false ∧
    (Instr.sizex 0#8 0#16 0#16 1#16 0#16).wellFormed = false ∧
    (Instr.sizex 0#8 0#16 0#16 0#16 1#16).wellFormed = false := by decide
theorem test_wellFormed_sizey :
    (Instr.sizey 1#8 0#16 0#16 0#16 0#16).wellFormed = false ∧
    (Instr.sizey 0#8 1#16 0#16 0#16 0#16).wellFormed = false ∧
    (Instr.sizey 0#8 0#16 1#16 0#16 0#16).wellFormed = false ∧
    (Instr.sizey 0#8 0#16 0#16 1#16 0#16).wellFormed = false ∧
    (Instr.sizey 0#8 0#16 0#16 0#16 1#16).wellFormed = false := by decide
theorem test_wellFormed_sizez :
    (Instr.sizez 1#8 0#16 0#16 0#16 0#16).wellFormed = false ∧
    (Instr.sizez 0#8 1#16 0#16 0#16 0#16).wellFormed = false ∧
    (Instr.sizez 0#8 0#16 1#16 0#16 0#16).wellFormed = false ∧
    (Instr.sizez 0#8 0#16 0#16 1#16 0#16).wellFormed = false ∧
    (Instr.sizez 0#8 0#16 0#16 0#16 1#16).wellFormed = false := by decide
theorem test_wellFormed_accepts :
    (Instr.pack 9#8 7#48 3#16).wellFormed = true ∧ (Instr.get 0#8 1#16 1#16 0#16 0#16).wellFormed = true := by
  decide

/-! ### Words written out from the encoding OP W A B C V of 30_encoding.md R60 (95_test_vectors.md V-E, V-F) -/

theorem test_decode_pack : decode 0x0110FFFD0002FFFEFFFF#80 =
    .command (.pack 0x10#8 281462092005374#48 0xFFFF#16) := by decide
theorem test_decode_unpack : decode 0x02080000000000000001#80 = .command (.unpack 8#8 0#48 1#16) := by decide
theorem test_decode_set : decode 0x0300FFFEFFFDFFFCFFFB#80 =
    .command (.set 0#8 65534#16 65533#16 65532#16 0xFFFB#16) := by decide
theorem test_decode_get : decode 0x04010001000200030004#80 =
    .command (.get 1#8 1#16 2#16 3#16 4#16) := by decide
theorem test_decode_sizex : decode 0x05010002000300040005#80 =
    .command (.sizex 1#8 2#16 3#16 4#16 5#16) := by decide
theorem test_decode_sizey : decode 0x06000000000000000001#80 =
    .command (.sizey 0#8 0#16 0#16 0#16 1#16) := by decide
theorem test_decode_sizez : decode 0x07010000000000000000#80 =
    .command (.sizez 1#8 0#16 0#16 0#16 0#16) := by decide
theorem test_decode_reserved :
    decode 0x08000000000000000000#80 = .illegal (.illegalOpcode 0x08#8) ∧
    decode 0xFF08FFFFFFFFFFFFFFFF#80 = .illegal (.illegalOpcode 0xFF#8) := by decide
theorem test_encode_slot : encode (.pack 16#8 281462092005374#48 0xFFFF#16) = 0x0110FFFD0002FFFEFFFF#80 := by
  decide
theorem test_assemble :
    assemble (.set 1 0 0 5) = some 0x03000001000000000005#80 ∧
    assemble (.unpack 8 4501) = some 0x02080000000011950000#80 ∧
    assemble (.pack 256 0 0) = none ∧ assemble (.unpack 4 281474976710656) = none ∧
    assemble (.get 0 65536 0) = none := by decide
theorem test_decodeTableWord :
    decodeTableWord 80 0x04000000006300000000 = some (.get 0#8 0#16 99#16 0#16 0#16) ∧
    decodeTableWord 80 0 = none := by decide

/-! ### One step of each command (95_test_vectors.md V-C, V-D, V-A, P1 to P4) -/

/-- P4 step 2: an odd slot's nibble, the other nibble and byte kept. -/
theorem test_pack_odd_nibble :
    seen (step (presenting (holding (fresh 3#16 1#16 1#16 4#8) [(1, 0x0F#8)]) 0x01040000000000010009#80)) =
      some ([(0, 0x90#8), (1, 0x0F#8)], [0x000000#24], 0x00#8) := by decide
/-- V-C, 16 bits, row 2: the low byte is at the lower address, and a zero byte is not listed. -/
theorem test_pack_16_bits :
    seen (step (presenting (holding (fresh 2#16 1#16 1#16 16#8) [(2, 0xFF#8), (3, 0xFF#8)])
      0x01100000000000000100#80)) =
      some ([(1, 0x01#8), (2, 0xFF#8), (3, 0xFF#8)], [0x000000#24], 0x00#8) := by decide
/-- P2 step 5. -/
theorem test_unpack_16_bits :
    seen (step (presenting (holding (fresh 3#16 2#16 2#16 16#8) [(6, 0x34#8), (7, 0x12#8)])
      0x02100000000000030000#80)) =
      some ([(6, 0x34#8), (7, 0x12#8)], [0x001234#24], 0x00#8) := by decide
/-- V-C, 4 bits, row 6: only the slot's nibble, zero-extended. -/
theorem test_unpack_high_nibble :
    seen (step (presenting (holding (fresh 4#16 1#16 1#16 4#8) [(0, 0xF5#8)]) 0x02040000000000010000#80)) =
      some ([(0, 0xF5#8)], [0x00000F#24], 0x00#8) := by decide
/-- P2 step 1: slot ((1 * 2 + 0) * 3) + 2 = 8. -/
theorem test_set_16_bits :
    seen (step (presenting (fresh 3#16 2#16 2#16 16#8) 0x0300000200010000BEEF#80)) =
      some ([(16, 0xEF#8), (17, 0xBE#8)], [0x000000#24], 0x00#8) := by decide
/-- V-D5 at 4 bits: SET 5, 17, 9, 2 is slot 4501, the high nibble of byte 2250. -/
theorem test_set_typical_dimensions :
    seen (step (presenting (fresh 16#16 256#16 16#16 4#8) 0x03000005001100090002#80)) =
      some ([(2250, 0x20#8)], [0x000000#24], 0x00#8) := by decide
/-- 41_dense_commands.md R93, example: BUF = 5A 00 03 F0. -/
theorem test_get_4_bits :
    seen (step (presenting (holding (fresh 2#16 2#16 2#16 4#8) [(0, 0x5A#8), (2, 0x03#8), (3, 0xF0#8)])
      0x04000001000000000000#80)) =
      some ([(0, 0x5A#8), (2, 0x03#8), (3, 0xF0#8)], [0x000005#24], 0x00#8) := by decide
/-- V-A. -/
theorem test_sizex : seen (step (presenting (fresh 65535#16 1#16 1#16 8#8) 0x05000000000000000000#80)) =
    some ([], [0x00FFFF#24], 0x00#8) := by decide
theorem test_sizey : seen (step (presenting (fresh 2#16 3#16 4#16 8#8) 0x06000000000000000000#80)) =
    some ([], [0x000003#24], 0x00#8) := by decide
theorem test_sizez : seen (step (presenting (fresh 2#16 3#16 4#16 8#8) 0x07000000000000000000#80)) =
    some ([], [0x000004#24], 0x00#8) := by decide

/-! ### Faults and priority (95_test_vectors.md V-F, V-P, straps (2, 3, 4, 8)), the halted engine (V-H), reset (V-R) -/

theorem test_fault_illegal_opcode :
    seen (step (presenting (fresh 2#16 3#16 4#16 8#8) 0x00000000000000000000#80)) =
      some ([], [0x010000#24], 0x01#8) := by decide
theorem test_fault_reserved_field_first :
    seen (step (presenting (fresh 2#16 3#16 4#16 8#8) 0x030100090000000001FF#80)) =
      some ([], [0x020000#24], 0x02#8) := by decide
theorem test_fault_width_before_slot :
    seen (step (presenting (fresh 2#16 3#16 4#16 8#8) 0x010400010000000001FF#80)) =
      some ([], [0x030000#24], 0x03#8) := by decide
theorem test_fault_slot_is_n :
    seen (step (presenting (fresh 2#16 3#16 4#16 8#8) 0x02080000000000180000#80)) =
      some ([], [0x050000#24], 0x05#8) := by decide
/-- V-D4: x = SIZEX faults although the slot of the formula is below N. -/
theorem test_fault_coordinate_not_slot :
    seen (step (presenting (fresh 2#16 3#16 4#16 8#8) 0x03000002000000000001#80)) =
      some ([], [0x060000#24], 0x06#8) := by decide
/-- V-C, 4 bits, row 7: never truncated. -/
theorem test_fault_value_range :
    seen (step (presenting (holding (fresh 4#16 1#16 1#16 4#8) [(0, 0xF0#8)]) 0x01040000000000000010#80)) =
      some ([(0, 0xF0#8)], [0x070000#24], 0x07#8) := by decide
theorem test_halted_answers :
    seen (step (presenting haltedEngine 0x04000001000000010000#80)) =
      some ([(3, 0x7F#8)], [0x070000#24, 0xFF0000#24], 0x07#8) ∧
    haltedEngine.statusOutput = { cause := 0x07#8, info := 0x03000000000000000100#80
                                  sizeX := 2#16, sizeY := 1#16, sizeZ := 2#16, bits := 8#8 } ∧
    haltedEngine.faultOut = 1#1 := by decide
theorem test_reset_lengths :
    (fresh 3#16 3#16 3#16 4#8).buf.len = 14 ∧
    (fresh 65535#16 65535#16 65535#16 16#8).buf.len = 562924184010750 ∧
    (fresh 65535#16 65535#16 65535#16 4#8).buf.len = 140731046002688 ∧
    (fresh 1#16 1#16 1#16 16#8).causeCode = 0x00#8 := by decide
theorem test_reset_capacity :
    (({ State.reset with capBytes := 65536 } : State).applyReset
      { sizeX := 16#16, sizeY := 256#16, sizeZ := 16#16, bits := 16#8 }).statusOutput =
      { cause := 0x11#8, info := 0#80, sizeX := 16#16, sizeY := 256#16, sizeZ := 16#16, bits := 16#8 } := by
  decide
theorem test_reset_invalid :
    (fresh 0#16 1#16 1#16 8#8).causeCode = 0x10#8 ∧ (fresh 1#16 1#16 1#16 5#8).causeCode = 0x10#8 ∧
    (fresh 1#16 1#16 1#16 32#8).buf.len = 0 ∧ (fresh 0#16 0#16 0#16 0#8).faultOut = 1#1 := by decide
/-- V-H: a reset clears the fault and the buffer. -/
theorem test_reset_from_halted :
    seen (step (resetting haltedEngine 2#16 1#16 2#16 8#8)) = some ([], [0x070000#24], 0x00#8) := by decide
/-- V-I at 4 bits: 21 03. -/
theorem test_image_4_bits :
    (holding (fresh 3#16 1#16 1#16 4#8) [(0, 0x21#8), (1, 0x03#8)]).buf.image = [0x21#8, 0x03#8] := by decide
/-- A word placed by the host is the first command after reset. -/
theorem test_withFetchWord :
    seen (step (State.reset.withFetchWord 80 0x06000000000000000000)) = some ([], [0x000100#24], 0x00#8) := by
  decide
theorem test_coordOf : coordOf 3 2 8 = (2, 1, 0) ∧ coordOf 3 2 3 = (0, 0, 1) ∧ slotOf 16 16 5 17 9 = 4501 := by
  decide
/-- The model's own stops: a byte beyond the buffer and a width that is none. -/
theorem test_model_stops :
    (Memory.zeroed 4).read 4 = .error (.noSuchByte 4) ∧
    codecRead (Memory.zeroed 4) 5#8 0 = .error (.noSuchWidth 5#8) := by decide

/-! ### Cases that meet the hypotheses of the statements -/

/-- A word that is a command and one that is not. -/
theorem witness_DecodeAndEncodeAreInverse :
    decode 0x07010000000000000000#80 = .command (.sizez 1#8 0#16 0#16 0#16 0#16) ∧
    decode 0x08010000000000000000#80 = .illegal (.illegalOpcode 8#8) := by decide
/-- Every operand at its largest, and each operand of PACK one above it. -/
theorem witness_AssembledWordIsTheWrittenCommand :
    operandsFit (.pack 255 281474976710655 65535) ∧ ¬ operandsFit (.pack 256 0 0) ∧
    ¬ operandsFit (.pack 4 281474976710656 0) ∧ ¬ operandsFit (.pack 4 0 65536) := by
  simp [operandsFit]
theorem witness_StepRunsTheDecodedCommand :
    (presenting (fresh 2#16 3#16 4#16 8#8) 0x04010000000000000000#80).pending =
      .command 0x04010000000000000000#80 :: [] ∧
    decode 0x04010000000000000000#80 = .command (.get 1#8 0#16 0#16 0#16 0#16) := by decide
/-- Both ends of the reserved range. -/
theorem witness_ReservedOpcodeRaisesIllegalOpcode :
    (presenting (fresh 2#16 3#16 4#16 8#8) 0x08000000000000000000#80).faultCause = .noFault ∧
    (presenting (fresh 2#16 3#16 4#16 8#8) 0x08000000000000000000#80).pending =
      .command 0x08000000000000000000#80 :: [] ∧
    opOf 0x00FFFFFFFFFFFFFFFFFF#80 = 0 ∧ 8 ≤ opOf 0x08000000000000000000#80 ∧
    8 ≤ opOf 0xFF000000000000000001#80 := by decide
theorem witness_IdleEngineKeepsAllState : haltedEngine.pending = [] ∧ State.reset.pending = [] := by decide
/-- A halted engine, an engine whose word faults at each check, and one whose word executes. -/
theorem witness_StepFollowsTheOrderOfChecks :
    (Inv (presenting haltedEngine 0#80) ∧ (presenting haltedEngine 0#80).pending = .command 0#80 :: [] ∧
      haltedEngine.faultCause ≠ .noFault) ∧
    (∀ c, Running (presenting (fresh 2#16 3#16 4#16 8#8) c) ∧
      (presenting (fresh 2#16 3#16 4#16 8#8) c).pending = .command c :: []) ∧
    violationIn (fresh 2#16 3#16 4#16 8#8) 0x08000000000000000000#80 = some .illegalOpcode ∧
    violationIn (fresh 2#16 3#16 4#16 8#8) 0x04000000000000000001#80 = some .reservedField ∧
    violationIn (fresh 2#16 3#16 4#16 8#8) 0x01090000000000000000#80 = some .widthMismatch ∧
    violationIn (fresh 2#16 3#16 4#16 8#8) 0x01080000000000180001#80 = some .slotRange ∧
    violationIn (fresh 2#16 3#16 4#16 8#8) 0x03000000000000040001#80 = some .coordRange ∧
    violationIn (fresh 2#16 3#16 4#16 8#8) 0x03000000000000000100#80 = some .valueRange ∧
    violationIn (fresh 2#16 3#16 4#16 8#8) 0x030000010002000300FF#80 = none :=
  ⟨⟨by decide, by decide, by decide⟩,
    fun _ => ⟨show Running (fresh 2#16 3#16 4#16 8#8) by decide, rfl⟩,
    by decide, by decide, by decide, by decide, by decide, by decide, by decide⟩
/-- A reading command, an accessor, a fault, a halted engine and a reset. -/
theorem witness_EveryCommandGetsOneResponse :
    Inv (presenting haltedEngine 0x05000000000000000000#80) ∧
    (∃ t, step (presenting (fresh 2#16 3#16 4#16 8#8) 0x02080000000000170000#80) = .next t) ∧
    (∃ t, step (presenting (fresh 2#16 3#16 4#16 8#8) 0x07000000000000000000#80) = .next t) ∧
    (∃ t, step (presenting (fresh 2#16 3#16 4#16 8#8) 0x00000000000000000000#80) = .next t) ∧
    (∃ t, step (presenting haltedEngine 0x05000000000000000000#80) = .next t) ∧
    (∃ t, step (resetting haltedEngine 1#16 1#16 1#16 8#8) = .next t) :=
  ⟨by decide, ⟨_, rfl⟩, ⟨_, rfl⟩, ⟨_, rfl⟩, ⟨_, rfl⟩, ⟨_, rfl⟩⟩
theorem witness_OnlyTheEngineStateIsObserved :
    SameEngine (fresh 2#16 3#16 4#16 8#8) { fresh 2#16 3#16 4#16 8#8 with capBytes := 24, responses := [0#24] } ∧
    (∃ t, runWord 0x030000010002000300FF#80 (fresh 2#16 3#16 4#16 8#8) = .next t) :=
  ⟨⟨rfl, rfl, rfl, rfl, rfl, rfl, rfl⟩, ⟨_, rfl⟩⟩
/-- The last slot at each width. -/
theorem witness_CodecReadFollowsTheBytes :
    (Running (fresh 3#16 1#16 1#16 4#8) ∧ 2 < (fresh 3#16 1#16 1#16 4#8).slotCount) ∧
    (Running (fresh 2#16 3#16 4#16 8#8) ∧ 23 < (fresh 2#16 3#16 4#16 8#8).slotCount) ∧
    (Running (fresh 3#16 2#16 2#16 16#8) ∧ 11 < (fresh 3#16 2#16 2#16 16#8).slotCount) := by
  refine ⟨⟨?_, ?_⟩, ⟨?_, ?_⟩, ?_, ?_⟩ <;> decide
/-- The last slot and the largest value at each width. -/
theorem witness_CodecWriteFollowsTheBytes :
    (Running (fresh 3#16 1#16 1#16 4#8) ∧ 2 < (fresh 3#16 1#16 1#16 4#8).slotCount ∧
      (0xF#16).toNat < 2 ^ (fresh 3#16 1#16 1#16 4#8).bits.toNat) ∧
    (Running (fresh 2#16 3#16 4#16 8#8) ∧ 23 < (fresh 2#16 3#16 4#16 8#8).slotCount ∧
      (0xFF#16).toNat < 2 ^ (fresh 2#16 3#16 4#16 8#8).bits.toNat) ∧
    (Running (fresh 3#16 2#16 2#16 16#8) ∧ 11 < (fresh 3#16 2#16 2#16 16#8).slotCount ∧
      (0xFFFF#16).toNat < 2 ^ (fresh 3#16 2#16 2#16 16#8).bits.toNat) := by
  refine ⟨⟨?_, ?_, ?_⟩, ⟨?_, ?_, ?_⟩, ?_, ?_, ?_⟩ <;> decide
/-- The last slot at each width, the largest value. -/
theorem witness_CodecReadsBackWhatItWrote :
    (Memory.zeroed 2).wf ∧
    ((0xF#16).toNat < 2 ^ (4#8).toNat ∧ ∃ m, codecWrite (Memory.zeroed 2) 4#8 3 0xF#16 = .ok m) ∧
    ((0xFF#16).toNat < 2 ^ (8#8).toNat ∧ ∃ m, codecWrite (Memory.zeroed 2) 8#8 1 0xFF#16 = .ok m) ∧
    ((0xFFFF#16).toNat < 2 ^ (16#8).toNat ∧ ∃ m, codecWrite (Memory.zeroed 2) 16#8 0 0xFFFF#16 = .ok m) :=
  ⟨by decide, ⟨by decide, _, rfl⟩, ⟨by decide, _, rfl⟩, ⟨by decide, _, rfl⟩⟩
theorem witness_CodecIsOneBitStringAtEveryWidth :
    (Memory.zeroed 2).wf ∧ (∃ v, codecRead (Memory.zeroed 2) 4#8 3 = .ok v) ∧
    (∃ v, codecRead (Memory.zeroed 2) 8#8 1 = .ok v) ∧
    (∃ v, codecRead (Memory.zeroed 2) 16#8 0 = .ok v) ∧
    (∃ m, codecWrite (Memory.zeroed 2) 4#8 3 0xF#16 = .ok m) ∧
    (∃ m, codecWrite (Memory.zeroed 2) 8#8 1 0xFF#16 = .ok m) ∧
    (∃ m, codecWrite (Memory.zeroed 2) 16#8 0 0xFFFF#16 = .ok m) :=
  ⟨by decide, ⟨_, rfl⟩, ⟨_, rfl⟩, ⟨_, rfl⟩, ⟨_, rfl⟩, ⟨_, rfl⟩, ⟨_, rfl⟩⟩
/-- The corners of a chunk of 3 by 2 by 2. -/
theorem witness_SlotsAndCoordinatesCorrespond :
    slotOf 3 2 0 0 0 = 0 ∧ slotOf 3 2 2 1 1 = 11 ∧ 11 < 3 * 2 * 2 ∧ coordOf 3 2 11 = (2, 1, 1) := by decide
theorem witness_ScanOrderIsSlotOrder :
    slotOf 3 2 2 0 1 < slotOf 3 2 0 1 0 ∧ slotOf 3 2 2 0 0 < slotOf 3 2 0 0 1 := by decide
/-- Completing at each width with the last slot and the largest value, then each fault at its boundary, then halted. -/
theorem witness_PackFollowsItsRule :
    (Running (fresh 3#16 1#16 1#16 4#8) ∧ 4#8 = (fresh 3#16 1#16 1#16 4#8).bits ∧ (2#48).toNat < 3 * 1 * 1 ∧
      (0xF#16).toNat < 2 ^ (4#8).toNat) ∧
    (Running (fresh 2#16 3#16 4#16 8#8) ∧ 8#8 = (fresh 2#16 3#16 4#16 8#8).bits ∧ (23#48).toNat < 2 * 3 * 4 ∧
      (0xFF#16).toNat < 2 ^ (8#8).toNat) ∧
    (Running (fresh 65535#16 65535#16 65535#16 16#8) ∧
      16#8 = (fresh 65535#16 65535#16 65535#16 16#8).bits ∧
      (281462092005374#48).toNat < 65535 * 65535 * 65535 ∧ (0xFFFF#16).toNat < 2 ^ (16#8).toNat) ∧
    9#8 ≠ (fresh 2#16 3#16 4#16 8#8).bits ∧ 2 * 3 * 4 ≤ (24#48).toNat ∧ 2 ^ (8#8).toNat ≤ (0x100#16).toNat ∧
    haltedEngine.faultCause ≠ .noFault := by
  refine ⟨⟨?_, ?_, ?_, ?_⟩, ⟨?_, ?_, ?_, ?_⟩, ⟨?_, ?_, ?_, ?_⟩, ?_, ?_, ?_, ?_⟩ <;> decide
theorem witness_UnpackFollowsItsRule :
    (Running (fresh 3#16 1#16 1#16 4#8) ∧ 4#8 = (fresh 3#16 1#16 1#16 4#8).bits ∧ (2#48).toNat < 3 * 1 * 1) ∧
    (Running (fresh 2#16 3#16 4#16 8#8) ∧ (23#48).toNat < 2 * 3 * 4) ∧
    (Running (fresh 3#16 2#16 2#16 16#8) ∧ (11#48).toNat < 3 * 2 * 2) ∧
    (1#16 : Value) ≠ 0#16 ∧ 7#8 ≠ (fresh 2#16 3#16 4#16 8#8).bits ∧ 2 * 3 * 4 ≤ (24#48).toNat ∧
    haltedEngine.faultCause ≠ .noFault := by
  refine ⟨⟨?_, ?_, ?_⟩, ⟨?_, ?_⟩, ⟨?_, ?_⟩, ?_, ?_, ?_, ?_⟩ <;> decide
/-- Completing at each width with the last coordinate and the largest value, then each fault, then halted. -/
theorem witness_SetFollowsItsRule :
    (Running (fresh 1#16 1#16 1#16 4#8) ∧ (0#16).toNat < 1 ∧ (0xF#16).toNat < 2 ^ (4#8).toNat) ∧
    (Running (fresh 2#16 3#16 4#16 8#8) ∧ (1#16).toNat < 2 ∧ (2#16).toNat < 3 ∧ (3#16).toNat < 4 ∧
      (0xFF#16).toNat < 2 ^ (8#8).toNat) ∧
    (Running (fresh 3#16 2#16 2#16 16#8) ∧ (2#16).toNat < 3 ∧ (1#16).toNat < 2 ∧
      (0xFFFF#16).toNat < 2 ^ (16#8).toNat) ∧
    (1#8 : BitVec 8) ≠ 0#8 ∧ (fresh 2#16 3#16 4#16 8#8).sizeZ.toNat ≤ (4#16).toNat ∧
    2 ^ (8#8).toNat ≤ (0x100#16).toNat ∧ haltedEngine.faultCause ≠ .noFault := by
  refine ⟨⟨?_, ?_, ?_⟩, ⟨?_, ?_, ?_, ?_, ?_⟩, ⟨?_, ?_, ?_, ?_⟩, ?_, ?_, ?_, ?_⟩ <;> decide
theorem witness_GetFollowsItsRule :
    (Running (fresh 3#16 2#16 2#16 16#8) ∧ (2#16).toNat < (fresh 3#16 2#16 2#16 16#8).sizeX.toNat ∧
      (1#16).toNat < (fresh 3#16 2#16 2#16 16#8).sizeY.toNat ∧
      (1#16).toNat < (fresh 3#16 2#16 2#16 16#8).sizeZ.toNat) ∧
    ((1#8 : BitVec 8) ≠ 0#8 ∨ (0#16 : Value) ≠ 0#16) ∧
    (fresh 3#16 2#16 2#16 16#8).sizeX.toNat ≤ (3#16).toNat ∧ haltedEngine.faultCause ≠ .noFault := by
  refine ⟨⟨?_, ?_, ?_, ?_⟩, ?_, ?_, ?_⟩ <;> decide
/-- All fields zero, one stray bit, and halted. -/
theorem witness_AccessorsFollowTheirRules :
    (fresh 3#16 2#16 2#16 16#8).faultCause = .noFault ∧ haltedEngine.faultCause ≠ .noFault ∧
    ¬ ((0#8 : BitVec 8) = 0#8 ∧ (0#16 : BitVec 16) = 0#16 ∧ (0#16 : BitVec 16) = 0#16 ∧
      (0#16 : BitVec 16) = 0#16 ∧ (1#16 : Value) = 0#16) := by decide
/-- A stray field in each command that has one, and a command with none. -/
theorem witness_StrayFieldRaisesReservedField :
    Running (fresh 2#16 3#16 4#16 8#8) ∧
    encode (.unpack 8#8 0#48 1#16) &&& mustBeZeroMask 2 ≠ 0#80 ∧
    encode (.set 8#8 0#16 0#16 0#16 1#16) &&& mustBeZeroMask 3 ≠ 0#80 ∧
    encode (.get 0#8 0#16 0#16 0#16 1#16) &&& mustBeZeroMask 4 ≠ 0#80 ∧
    encode (.sizex 0#8 1#16 0#16 0#16 0#16) &&& mustBeZeroMask 5 ≠ 0#80 ∧
    encode (.sizey 0#8 0#16 0#16 0#16 1#16) &&& mustBeZeroMask 6 ≠ 0#80 ∧
    encode (.sizez 1#8 0#16 0#16 0#16 0#16) &&& mustBeZeroMask 7 ≠ 0#80 ∧
    encode (.pack 9#8 0#48 1#16) &&& mustBeZeroMask 1 = 0#80 := by decide
theorem witness_EachCommandRaisesOnlyItsCauses : Running (fresh 2#16 3#16 4#16 8#8) := by decide
theorem witness_ReadingCommandsChangeNothing :
    (∀ w slot v, Instr.get 0#8 0#16 0#16 0#16 0#16 ≠ .pack w slot v) ∧
    (∀ w x y z v, Instr.get 0#8 0#16 0#16 0#16 0#16 ≠ .set w x y z v) ∧
    (∃ t, exec (.get 0#8 0#16 0#16 0#16 0#16) (fresh 2#16 3#16 4#16 8#8) = .next t ∧
      t.faultCause = (fresh 2#16 3#16 4#16 8#8).faultCause) :=
  ⟨nofun, nofun, _, rfl, rfl⟩
theorem witness_SlotAndCoordinateFormsAgree :
    Running (fresh 2#16 3#16 4#16 8#8) ∧ (1#16).toNat < 2 ∧ (2#16).toNat < 3 ∧ (3#16).toNat < 4 ∧
    (0xFF#16).toNat < 2 ^ (fresh 2#16 3#16 4#16 8#8).bits.toNat := by decide
/-- Two voxels of one byte. -/
theorem witness_SetThenGetAnswersTheValue :
    Running (fresh 2#16 2#16 2#16 4#8) ∧ (0#16).toNat < (fresh 2#16 2#16 2#16 4#8).sizeX.toNat ∧
    (1#16).toNat < (fresh 2#16 2#16 2#16 4#8).sizeX.toNat ∧
    (0xF#16).toNat < 2 ^ (fresh 2#16 2#16 2#16 4#8).bits.toNat ∧
    ((1#16 : Dim), (0#16 : Dim), (0#16 : Dim)) ≠ (0#16, 0#16, 0#16) := by decide
/-- Two slots of one byte, and the coordinate of the slot written. -/
theorem witness_PackThenUnpackAnswersTheValue :
    Running (fresh 2#16 2#16 2#16 4#8) ∧ (6#48).toNat < (fresh 2#16 2#16 2#16 4#8).slotCount ∧
    (7#48).toNat < (fresh 2#16 2#16 2#16 4#8).slotCount ∧
    (0xF#16).toNat < 2 ^ (fresh 2#16 2#16 2#16 4#8).bits.toNat ∧ slotOf 2 2 0 1 1 = (6#48).toNat := by decide
theorem witness_FaultEntryRecordsTheCommand :
    ∃ t, step (presenting (fresh 2#16 3#16 4#16 8#8) 0x01080001000000000001#80) = .next t ∧
      t.faultCause ≠ .noFault := ⟨_, rfl, by decide⟩
/-- A legal word and an illegal one. -/
theorem witness_HaltedEngineAnswersFF0000 :
    haltedEngine.faultCause ≠ .noFault ∧
    (presenting haltedEngine 0#80).pending = .command 0#80 :: [] ∧
    (presenting haltedEngine 0x05000000000000000000#80).pending =
      .command 0x05000000000000000000#80 :: [] := by decide
/-- A command that leaves the engine halted and a reset that does not. -/
theorem witness_OnlyResetLeavesTheHaltedState :
    haltedEngine.faultCause ≠ .noFault ∧ (∃ t, step (presenting haltedEngine 0#80) = .next t) ∧
    (∃ t, step (resetting haltedEngine 2#16 1#16 2#16 8#8) = .next t ∧ t.faultCause = .noFault) :=
  ⟨by decide, ⟨_, rfl⟩, ⟨_, rfl, by decide⟩⟩
/-- fault_out rises by a command, rises by a reset, and falls by a reset. -/
theorem witness_FaultOutFollowsTheCause :
    ((fresh 2#16 3#16 4#16 8#8).faultOut = 0#1 ∧
      ∃ t, step (presenting (fresh 2#16 3#16 4#16 8#8) 0#80) = .next t ∧ t.faultOut = 1#1) ∧
    (∃ t, step (resetting (fresh 2#16 3#16 4#16 8#8) 0#16 1#16 1#16 8#8) = .next t ∧ t.faultOut = 1#1) ∧
    (haltedEngine.faultOut = 1#1 ∧
      ∃ t, step (resetting haltedEngine 1#16 1#16 1#16 8#8) = .next t ∧ t.faultOut = 0#1) :=
  ⟨⟨by decide, _, rfl, by decide⟩, ⟨_, rfl, by decide⟩, by decide, _, rfl, by decide⟩
/-- Straps that are invalid, straps one byte over the capacity, and straps exactly at it (V-R). -/
theorem witness_ResetStepBuildsTheInstance :
    (resetting haltedEngine 1#16 1#16 1#16 5#8).pending =
      [.reset { sizeX := 1#16, sizeY := 1#16, sizeZ := 1#16, bits := 5#8 }] ∧
    562924184010749 < (65535 * 65535 * 65535 * 16 + 7) / 8 ∧
    (65535 * 65535 * 65535 * 16 + 7) / 8 ≤ 562924184010750 := by decide
/-- V-R: the largest straps at exactly their length. -/
theorem witness_FreshInstanceReadsZero :
    1 ≤ haltedEngine.capBytes ∧
    Straps.valid { sizeX := 65535#16, sizeY := 65535#16, sizeZ := 65535#16, bits := 16#8 } = true ∧
    Straps.bufferLength { sizeX := 65535#16, sizeY := 65535#16, sizeZ := 65535#16, bits := 16#8 } ≤
      haltedEngine.capBytes ∧
    (∃ t, step (resetting haltedEngine 65535#16 65535#16 65535#16 16#8) = .next t) :=
  ⟨by decide, by decide, by decide, ⟨_, rfl⟩⟩
/-- Invalid straps, and valid ones over the capacity. -/
theorem witness_BadStrapsLeaveTheEngineHalted :
    (Straps.valid { sizeX := 1#16, sizeY := 0#16, sizeZ := 1#16, bits := 8#8 } = false ∧
      ∃ t, step (resetting State.reset 1#16 0#16 1#16 8#8) = .next t) ∧
    (65536 < Straps.bufferLength { sizeX := 16#16, sizeY := 256#16, sizeZ := 16#16, bits := 16#8 } ∧
      ∃ t, step (resetting { State.reset with capBytes := 65536 } 16#16 256#16 16#16 16#8) = .next t) :=
  ⟨⟨by decide, _, rfl⟩, by decide, _, rfl⟩
theorem witness_ResetForgetsTheOldInstance :
    haltedEngine.capBytes = (fresh 2#16 3#16 4#16 8#8).capBytes ∧
    (∃ t, step (resetting haltedEngine 1#16 1#16 1#16 4#8) = .next t) ∧
    (∃ t, step (resetting (fresh 2#16 3#16 4#16 8#8) 1#16 1#16 1#16 4#8) = .next t) :=
  ⟨rfl, ⟨_, rfl⟩, ⟨_, rfl⟩⟩
theorem witness_ResetStateIsAResetStep :
    (resetting (fresh 2#16 3#16 4#16 8#8) 16#16 256#16 16#16 8#8).capBytes = 562924184010750 ∧
    (resetting (fresh 2#16 3#16 4#16 8#8) 16#16 256#16 16#16 8#8).responses = [] := by decide
theorem witness_OnlyResetChangesTheConfiguration :
    (∀ st rest, (presenting (fresh 2#16 3#16 4#16 8#8) 0x030000010002000300FF#80).pending ≠
      .reset st :: rest) ∧
    (∃ t, step (presenting (fresh 2#16 3#16 4#16 8#8) 0x030000010002000300FF#80) = .next t) :=
  ⟨nofun, ⟨_, rfl⟩⟩
theorem witness_StepKeepsTheBufferCanonical :
    (holding (fresh 2#16 1#16 1#16 16#8) [(2, 0xFF#8), (3, 0xFF#8)]).buf.wf ∧
    (∃ t, step (presenting (holding (fresh 2#16 1#16 1#16 16#8) [(2, 0xFF#8), (3, 0xFF#8)])
      0x01100000000000000100#80) = .next t) := ⟨by decide, ⟨_, rfl⟩⟩
/-- The invariant is met running, halted by a command, and halted by a reset of either kind. -/
theorem witness_StepKeepsTheInvariant :
    Inv (presenting (holding (fresh 3#16 1#16 1#16 4#8) [(1, 0x0F#8)]) 0x01040000000000010009#80) ∧
    Inv haltedEngine ∧ Inv (fresh 0#16 1#16 1#16 8#8) ∧
    Inv (({ State.reset with capBytes := 65536 } : State).applyReset
      { sizeX := 16#16, sizeY := 256#16, sizeZ := 16#16, bits := 16#8 }) := by
  refine ⟨?_, ?_, ?_, ?_⟩ <;> decide
theorem witness_EveryStepAnswers : Inv (presenting haltedEngine 0#80) ∧ Inv State.reset := by
  refine ⟨?_, ?_⟩ <;> decide
theorem witness_EveryRunEndsWithAllAnswered :
    Inv { fresh 2#16 3#16 4#16 8#8 with
      pending := [.command 0x05000000000000000000#80,
        .reset { sizeX := 0#16, sizeY := 1#16, sizeZ := 1#16, bits := 8#8 }, .command 0#80] } := by decide
/-- Two stores to one slot. -/
theorem witness_EverySlotHoldsTheLatestStore :
    ∃ t : State, Host.Core.run Sys2Proof.core 2 ({ fresh 2#16 2#16 2#16 4#8 with
        pending := [0x01040000000000010009#80, 0x03000001000000000005#80].map .command } : State) = .next t ∧
      Running (fresh 2#16 2#16 2#16 4#8) ∧ t.faultCause = .noFault := ⟨_, rfl, by decide, rfl⟩
/-- At each width; at 4 bits an even and an odd slot count. -/
theorem witness_ByteImageIsComputedFromReads :
    Running (fresh 2#16 2#16 2#16 4#8) ∧
    Running (holding (fresh 3#16 1#16 1#16 4#8) [(0, 0x21#8), (1, 0x03#8)]) ∧
    (fresh 3#16 1#16 1#16 4#8).slotCount % 2 = 1 ∧
    Running (fresh 3#16 1#16 1#16 8#8) ∧ Running (fresh 3#16 1#16 1#16 16#8) := by
  refine ⟨?_, ?_, ?_, ?_, ?_⟩ <;> decide
/-- The image 21 03 of V-I. -/
theorem witness_LoadingAByteImageReproducesIt :
    Running (fresh 3#16 1#16 1#16 4#8) ∧ (⟨2, [(0, 0x21#8), (1, 0x03#8)]⟩ : Memory).wf ∧
    2 = (fresh 3#16 1#16 1#16 4#8).bufferLength ∧
    (lookupCell ((fresh 3#16 1#16 1#16 4#8).bufferLength - 1)
      [(0, 0x21#8), (1, 0x03#8)]).extractLsb' 4 4 = 0#4 ∧
    loadCommands 4#8 ⟨2, [(0, 0x21#8), (1, 0x03#8)]⟩ 3 =
      [0x01040000000000000001#80, 0x01040000000000010002#80, 0x01040000000000020003#80] := by decide

end Sys2Proof.Tests
end

section
/-! What the step does with a presented command word (00_scope.md R12, 10_state.md R28): taking the host's input and
running the word are two layers of the model, each with its equation here. -/

namespace Sys2Proof.Machine

/-- The step takes a presented word off the host's list and runs it (R28). -/
theorem step_of_pending_command {s : State} {c : CmdWord} {rest : List HostEvent}
    (h : s.pending = .command c :: rest) : step s = runWord c { s with pending := rest } := by
  rw [step, State.takeEvent_cons h]
  rfl

/-- A word that decodes to a command has that command's meaning, whether or not it is well-formed: the test of its
must-be-zero fields is a part of the meaning (30_encoding.md R66). -/
theorem runWord_of_decode_command {c : CmdWord} {i : Instr} (h : decode c = .command i) (s : State) :
    runWord c s = exec i s := by
  rw [runWord, h]

/-- Settles O5: the step runs the presented word, and the word runs as the command it decodes to. -/
theorem stepRunsTheDecodedCommand : Obligations.StepRunsTheDecodedCommand := by
  intro s c rest i hpending hdecode
  calc step s = runWord c { s with pending := rest } := step_of_pending_command hpending
    _ = exec i { s with pending := rest } := runWord_of_decode_command hdecode _

end Sys2Proof.Machine
end

section
/-! SUPPORT. What a word does to the engine (30_encoding.md R66), by the fault that its bits call for: one equation
for each outcome of the order of checks, and the inversion that later proofs split on. -/

namespace Sys2Proof.Machine

open Sys2Proof.Safety

/-! ### The word of a decoded command -/

/-- A word is the format `C` of its own opcode and its other fields. -/
theorem formatC_fields_of_op {c : CmdWord} {op : BitVec 8} (h : (fieldOp c).toNat = op.toNat) :
    formatC op (fieldW c) (fieldA c) (fieldB c) (fieldC c) (fieldV c) = c := by
  rw [← BitVec.eq_of_toNat_eq h, formatC_fields]

/-- Encoding a decoded command gives the word back: a fault records the word that arrived (R142). -/
theorem encode_of_decode {c : CmdWord} {i : Instr} (h : decode c = .command i) : encode i = c := by
  unfold decode at h
  split at h
  case h_1 hop => cases h; exact (formatSlot_slotIndex ..).trans (formatC_fields_of_op hop)
  case h_2 hop => cases h; exact (formatSlot_slotIndex ..).trans (formatC_fields_of_op hop)
  case h_8 => cases h
  all_goals cases h; exact formatC_fields_of_op (by assumption)

/-- Only a reserved opcode is the verdict illegal (R64). -/
theorem opOf_of_decode_illegal {c : CmdWord} {e : DecodeError} (h : decode c = .illegal e) :
    opOf c < 1 ∨ 7 < opOf c := by
  rw [← fieldOp_toNat]
  unfold decode at h
  split at h
  case h_8 h₁ h₂ h₃ h₄ h₅ h₆ h₇ =>
    simp only [imp_false] at h₁ h₂ h₃ h₄ h₅ h₆ h₇
    omega
  all_goals cases h

/-! ### The fault that a word calls for -/

theorem violationIn_of_decode_illegal {c : CmdWord} {e : DecodeError} (h : decode c = .illegal e)
    (s : State) : violationIn s c = some .illegalOpcode :=
  if_pos (opOf_of_decode_illegal h)

theorem violationIn_of_decode_command {c : CmdWord} {i : Instr} (h : decode c = .command i)
    (s : State) : violationIn s c = firstViolation (checksOf s i) := by
  rw [← encode_of_decode h, violation_encode]

/-- A word that calls for no fault is a command. -/
theorem exists_decode_of_clear {s : State} {c : CmdWord} (h : violationIn s c = none) :
    ∃ i, decode c = .command i := by
  cases hd : decode c with
  | command i => exact ⟨i, rfl⟩
  | illegal e =>
    rw [violationIn_of_decode_illegal hd] at h
    cases h

/-- Every fault that a word calls for is one that commands raise: a cause, and not one that reset latches (R141). -/
theorem violationIn_is_command_cause {s : State} {c : CmdWord} {cause : Cause}
    (h : violationIn s c = some cause) :
    cause ≠ .noFault ∧ cause ≠ .cfgInvalid ∧ cause ≠ .cfgCapacity := by
  cases hd : decode c with
  | command i =>
    rw [violationIn_of_decode_command hd] at h
    rcases checksOf_causes h with rfl | rfl | rfl | rfl | rfl <;> decide
  | illegal e =>
    rw [violationIn_of_decode_illegal hd] at h
    cases h
    decide

/-! ### Running a word -/

theorem runWord_of_decode_illegal {c : CmdWord} {e : DecodeError} (h : decode c = .illegal e)
    (s : State) : runWord c s = .next (illegalCommand c s) := by
  cases e
  rw [runWord, h]

/-- A halted engine answers every word alike (R148). -/
theorem runWord_halted {s : State} (h : s.halted = true) (c : CmdWord) :
    runWord c s = .next s.respondHalted := by
  cases hd : decode c with
  | command i => rw [runWord_of_decode_command hd, exec_eq_guarded, guarded_halted h]
  | illegal e => rw [runWord_of_decode_illegal hd, illegalCommand, if_pos h]

/-- A running engine raises the fault that the word calls for and records the word (R147). -/
theorem runWord_violation {s : State} {c : CmdWord} {cause : Cause} (h : s.halted = false)
    (hv : violationIn s c = some cause) : runWord c s = .next (s.raiseFault cause c) := by
  cases hd : decode c with
  | command i =>
    rw [violationIn_of_decode_command hd] at hv
    rw [runWord_of_decode_command hd, exec_eq_guarded, guarded_violation h hv, encode_of_decode hd]
  | illegal e =>
    rw [violationIn_of_decode_illegal hd] at hv
    cases hv
    rw [runWord_of_decode_illegal hd, illegalCommand, h]
    rfl

/-- A running engine gives a command that calls for no fault its effect. -/
theorem runWord_clear {s : State} {c : CmdWord} {i : Instr} (h : s.halted = false)
    (hv : violationIn s c = none) (hd : decode c = .command i) : runWord c s = effectOf s i := by
  rw [violationIn_of_decode_command hd] at hv
  rw [runWord_of_decode_command hd, exec_eq_guarded, guarded_clear h hv]

/-- Everything a word can do, if the engine answers it. -/
theorem runWord_cases {s t : State} {c : CmdWord} (h : runWord c s = .next t) :
    (s.halted = true ∧ t = s.respondHalted) ∨
    (∃ cause, s.halted = false ∧ violationIn s c = some cause ∧ t = s.raiseFault cause c) ∨
    (∃ i, s.halted = false ∧ violationIn s c = none ∧ decode c = .command i ∧
      effectOf s i = .next t) := by
  cases hh : s.halted with
  | true =>
    rw [runWord_halted hh] at h
    cases h
    exact .inl ⟨rfl, rfl⟩
  | false =>
    cases hv : violationIn s c with
    | some cause =>
      rw [runWord_violation hh hv] at h
      cases h
      exact .inr (.inl ⟨cause, rfl, rfl, rfl⟩)
    | none =>
      obtain ⟨i, hd⟩ := exists_decode_of_clear hv
      rw [runWord_clear hh hv hd] at h
      exact .inr (.inr ⟨i, rfl, rfl, hd, h⟩)

/-! ### What a word changes -/

/-- No word changes the configuration registers (10_state.md R21, R23) or the capacity (00_scope.md R7). -/
theorem runWord_keeps_configuration {s t : State} {c : CmdWord} (h : runWord c s = .next t) :
    t.sizeX = s.sizeX ∧ t.sizeY = s.sizeY ∧ t.sizeZ = s.sizeZ ∧ t.bits = s.bits ∧
      t.capBytes = s.capBytes := by
  rcases runWord_cases h with ⟨-, rfl⟩ | ⟨cause, -, -, rfl⟩ | ⟨i, -, -, -, he⟩
  · simp
  · simp
  · rcases effectOf_cases he with ⟨slot, v, buf, -, rfl⟩ | ⟨data, rfl⟩ <;> simp

/-- A word leaves the buffer alone or changes it by one codec write. -/
theorem runWord_buf_cases {s t : State} {c : CmdWord} (h : runWord c s = .next t) :
    t.buf = s.buf ∨ ∃ slot v, codecWrite s.buf s.bits slot v = .ok t.buf := by
  rcases runWord_cases h with ⟨-, rfl⟩ | ⟨cause, -, -, rfl⟩ | ⟨i, -, -, -, he⟩
  · exact .inl rfl
  · exact .inl rfl
  · rcases effectOf_cases he with ⟨slot, v, buf, hw, rfl⟩ | ⟨data, rfl⟩
    · exact .inr ⟨slot, v, hw⟩
    · exact .inl rfl

end Sys2Proof.Machine
end

section
/-! SUPPORT. The length of the buffer under a write of any buffer, canonical or not, and what a 4-bit write leaves of
every other slot (20_memory.md R46). -/

namespace Sys2Proof.Machine

theorem Memory.write_len {m m' : Memory} {a : Nat} {b : Byte} (h : m.write a b = .ok m') :
    m'.len = m.len := by
  unfold Memory.write at h
  split at h <;> cases h
  rfl

theorem Memory.write16_len {m m' : Memory} {a : Nat} {v : BitVec 16}
    (h : m.write16 a v = .ok m') : m'.len = m.len := by
  unfold Memory.write16 at h
  split at h
  · cases h
  · rename_i m₁ h₁
    exact (Memory.write_len h).trans (Memory.write_len h₁)

theorem codecWrite_len {m m' : Memory} {bits : BitVec 8} {slot : Nat} {v : Value}
    (h : codecWrite m bits slot v = .ok m') : m'.len = m.len := by
  unfold codecWrite at h
  split at h
  case h_1 =>
    split at h
    · cases h
    · exact Memory.write_len h
  case h_2 => exact Memory.write_len h
  case h_3 => exact Memory.write16_len h
  case h_4 => cases h

/-- A 4-bit write leaves the nibble of every other slot as it was, whether that slot is in range or not. -/
theorem codecWrite_4_nibble_other {m m' : Memory} {slot other : Nat} {v : Value}
    (h : codecWrite m 4#8 slot v = .ok m') (hm : m.wf) (hv : v.toNat < 16) (hne : other ≠ slot) :
    nibbleOf other (lookupCell (other / 2) m'.cells) =
      nibbleOf other (lookupCell (other / 2) m.cells) := by
  obtain ⟨-, -, -, hread⟩ := codecWrite_4_spec h hm
  rw [hread]
  split
  next hbyte => rw [hbyte, nibbleOf_withNibble_other _ _ (by omega) hv]
  next => rfl

/-- The pad nibble of an odd number of 4-bit slots is the nibble of the slot one past the last (R32). -/
theorem padNibble_eq_nibbleOf {n : Nat} (cells : List Host.Cell) (h : n % 2 = 1) :
    (lookupCell (packedBytes n 4#8 - 1) cells).extractLsb' 4 4 =
      nibbleOf n (lookupCell (n / 2) cells) := by
  have hlast : packedBytes n 4#8 - 1 = n / 2 := by
    simp only [packedBytes, BitVec.toNat_ofNat]
    omega
  rw [hlast, nibbleOf, if_neg (by omega)]

end Sys2Proof.Machine
end

section
/-! The invariant of 10_state.md R32 and R33: each change that a step makes to the state keeps it, and so does the
step. -/

namespace Sys2Proof.Machine

open Sys2Proof.Safety

/-- The buffer may change as long as its canonical form, its length and the pad nibble stay. -/
theorem inv_setBuf {s : State} {buf : Memory} (hs : Inv s) (hwf : buf.wf)
    (hlen : buf.len = s.buf.len)
    (hpad : s.bits = 4#8 → s.slotCount % 2 = 1 →
      (lookupCell (s.bufferLength - 1) s.buf.cells).extractLsb' 4 4 = 0#4 →
      (lookupCell (s.bufferLength - 1) buf.cells).extractLsb' 4 4 = 0#4) :
    Inv { s with buf := buf } := by
  obtain ⟨hcap, -, hcfg, hcons, hclear, hcmd⟩ := hs
  refine ⟨hcap, hwf, fun hc => ?_, fun hc => ?_, hclear, hcmd⟩
  · obtain ⟨hcause, hempty, hinfo⟩ := hcfg hc
    exact ⟨hcause, hlen.trans hempty, hinfo⟩
  · obtain ⟨hx, hy, hz, hbits, hbuf, hfits, hzero⟩ := hcons hc
    exact ⟨hx, hy, hz, hbits, hlen.trans hbuf, hfits, fun hb hodd => hpad hb hodd (hzero hb hodd)⟩

/-- A codec write of a slot in range and a value that fits keeps the invariant: the pad nibble belongs to no slot in
range. -/
theorem inv_codecWrite {s : State} {buf : Memory} {slot : Nat} {v : Value} (hs : Inv s)
    (hslot : slot < s.slotCount) (hv : v.toNat < 2 ^ s.bits.toNat)
    (hw : codecWrite s.buf s.bits slot v = .ok buf) : Inv { s with buf := buf } := by
  have ⟨_, hwf, _, _, _, _⟩ := hs
  obtain ⟨hlen, hwf', -⟩ := codecWrite_keeps hw hwf
  refine inv_setBuf hs hwf' hlen fun hbits hodd hzero => ?_
  rw [hbits] at hw hv
  rw [State.bufferLength, hbits, padNibble_eq_nibbleOf _ hodd] at hzero ⊢
  rw [codecWrite_4_nibble_other hw hwf (by simpa using hv) (by omega), hzero]

/-- Fault entry keeps the invariant where the word calls for the fault: INFO then raises exactly CAUSE (R33). -/
theorem inv_raiseFault {s : State} {c : CmdWord} {cause : Cause} (hs : Inv s)
    (hrun : s.faultCause = .noFault) (hv : violationIn s c = some cause) :
    Inv (s.raiseFault cause c) := by
  obtain ⟨hcap, hwf, -, hcons, -, -⟩ := hs
  obtain ⟨hfault, hinvalid, hcapacity⟩ := violationIn_is_command_cause hv
  have hconstructed : Constructed s := hcons (by simp [hrun])
  exact ⟨hcap, hwf, fun hc => (hc.elim hinvalid hcapacity).elim, fun _ => hconstructed,
    fun hc => (hfault hc).elim, fun _ => hv⟩

/-- The state after a reset meets the invariant, whatever the straps and the old state were
(70_reset_and_hazards.md R171 to R173). -/
theorem inv_applyReset {s : State} (hcap : 1 ≤ s.capBytes) (st : Straps) : Inv (s.applyReset st) := by
  refine ⟨hcap, Memory.zeroed_wf _, fun hc => ⟨rfl, ?_, rfl⟩, fun hc => ?_, fun _ => rfl, fun hc => ?_⟩
  · rw [State.applyReset_faultCause] at hc
    have hne : resetCause s.capBytes st ≠ .noFault := fun e => by simp [e] at hc
    rw [State.applyReset_buf, if_neg hne, Memory.zeroed_len]
  · rw [State.applyReset_faultCause] at hc
    rcases resetCause_cases s.capBytes st with ⟨-, e⟩ | ⟨-, -, e⟩ | ⟨hvalid, hfits, e⟩
    · exact (hc (.inl e)).elim
    · exact (hc (.inr e)).elim
    · obtain ⟨hx, hy, hz, hbits⟩ := st.valid_iff.mp hvalid
      refine ⟨hx, hy, hz, hbits, ?_, hfits, fun _ _ => ?_⟩
      · rw [State.applyReset_buf, if_pos e, Memory.zeroed_len, State.applyReset_bufferLength]
      · rw [State.applyReset_buf, Memory.zeroed_lookup]
        rfl
  · rw [State.applyReset_faultCause] at hc
    rcases resetCause_cases s.capBytes st with ⟨-, e⟩ | ⟨-, -, e⟩ | ⟨-, -, e⟩ <;> simp [e] at hc

/-- The effect of a command whose checks are clear: a slot in range stores a value that fits, or nothing but the
response changes. -/
theorem effectOf_cases_of_clear {i : Instr} {s t : State}
    (hv : firstViolation (checksOf s i) = none) (h : effectOf s i = .next t) :
    (∃ slot v buf, slot < s.slotCount ∧ v.toNat < 2 ^ s.bits.toNat ∧
      codecWrite s.buf s.bits slot v = .ok buf ∧
      t = ({ s with buf := buf } : State).respond statusOk 0x0000#16) ∨
    (∃ data, t = s.respond statusOk data) := by
  cases i with
  | pack w slot v =>
    obtain ⟨buf, hw, rfl⟩ := storeSlot_cases h
    simp only [checksOf, firstViolation_cons_eq_none, State.slotOutOfRange, State.valueOutOfRange,
      decide_eq_false_iff_not, not_le] at hv
    obtain ⟨-, hslot, hfit, -⟩ := hv
    exact .inl ⟨slot.toNat, v, buf, hslot, hfit, hw, rfl⟩
  | set w x y z v =>
    obtain ⟨buf, hw, rfl⟩ := storeSlot_cases h
    simp only [checksOf, firstViolation_cons_eq_none, State.valueOutOfRange,
      decide_eq_false_iff_not, not_le] at hv
    obtain ⟨-, hcoord, hfit, -⟩ := hv
    exact .inl ⟨s.voxelSlot x y z, v, buf, voxelSlot_lt hcoord, hfit, hw, rfl⟩
  | unpack w slot v =>
    obtain ⟨data, -, e⟩ := answerSlot_cases h
    exact .inr ⟨data, e⟩
  | get w x y z v =>
    obtain ⟨data, -, e⟩ := answerSlot_cases h
    exact .inr ⟨data, e⟩
  | sizex | sizey | sizez =>
    cases h
    exact .inr ⟨_, rfl⟩

/-- Every word keeps the invariant. -/
theorem runWord_keeps_inv {s t : State} {c : CmdWord} (hs : Inv s) (h : runWord c s = .next t) :
    Inv t := by
  rcases runWord_cases h with ⟨-, rfl⟩ | ⟨cause, hh, hv, rfl⟩ | ⟨i, -, hv, hd, he⟩
  · exact hs
  · exact inv_raiseFault hs (s.halted_eq_false_iff.mp hh) hv
  · rw [violationIn_of_decode_command hd] at hv
    rcases effectOf_cases_of_clear hv he with ⟨slot, v, buf, hslot, hfit, hw, rfl⟩ | ⟨data, rfl⟩
    · exact inv_codecWrite (s := s) hs hslot hfit hw
    · exact hs

/-- Settles O41: an idle step changes nothing, and a word and a reset each keep the invariant. -/
theorem stepKeepsTheInvariant : Obligations.StepKeepsTheInvariant := by
  intro s t hs h
  rcases step_cases s with ⟨-, e⟩ | ⟨c, rest, -, e⟩ | ⟨st, rest, -, e⟩ <;> rw [e] at h
  · cases h; exact hs
  · exact runWord_keeps_inv (s := { s with pending := rest }) hs h
  · cases h; exact inv_applyReset hs.1 st

/-- Settles O40: `State.reset` is a state that a reset gives. -/
theorem resetStateMeetsTheInvariant : Obligations.ResetStateMeetsTheInvariant := by
  have hcap : 1 ≤ State.reset.capBytes := by decide
  have h := inv_applyReset hcap
    { sizeX := Config.resetSizeX, sizeY := Config.resetSizeY, sizeZ := Config.resetSizeZ,
      bits := Config.resetBits }
  rwa [State.reset_eq_applyReset] at h

end Sys2Proof.Machine
end

section
/-! The frame of the state: what no step changes (10_state.md R21, R23, R24, 00_scope.md R7), the canonical form of
the buffer, and the predicate halted (R26). -/

namespace Sys2Proof.Machine

/-- No word changes the length of the buffer (R24). -/
theorem runWord_keeps_length {s t : State} {c : CmdWord} (h : runWord c s = .next t) :
    t.buf.len = s.buf.len := by
  rcases runWord_buf_cases h with e | ⟨slot, v, hw⟩
  · rw [e]
  · exact codecWrite_len hw

/-- Settles O38: an idle step and a word keep the configuration; a reset keeps the capacity. -/
theorem onlyResetChangesTheConfiguration : Obligations.OnlyResetChangesTheConfiguration := by
  intro s t h
  rcases step_cases s with ⟨-, e⟩ | ⟨c, rest, -, e⟩ | ⟨st, rest, hp, e⟩ <;> rw [e] at h
  · cases h
    exact ⟨rfl, fun _ => ⟨rfl, rfl, rfl, rfl, rfl⟩⟩
  · obtain ⟨hx, hy, hz, hbits, hcap⟩ := runWord_keeps_configuration h
    have hlen := runWord_keeps_length h
    exact ⟨hcap, fun _ => ⟨hx, hy, hz, hbits, hlen⟩⟩
  · cases h
    exact ⟨rfl, fun hne => (hne st rest hp).elim⟩

/-- Settles O39: a word changes the buffer by a codec write at most, and a reset builds a buffer of zeros. -/
theorem stepKeepsTheBufferCanonical : Obligations.StepKeepsTheBufferCanonical := by
  intro s t hwf h
  rcases step_cases s with ⟨-, e⟩ | ⟨c, rest, -, e⟩ | ⟨st, rest, -, e⟩ <;> rw [e] at h
  · cases h
    exact hwf
  · rcases runWord_buf_cases h with hbuf | ⟨slot, v, hw⟩
    · rw [hbuf]
      exact hwf
    · obtain ⟨-, hwf', -⟩ := codecWrite_keeps hw hwf
      exact hwf'
  · cases h
    exact Memory.zeroed_wf _

/-- Settles O28: the predicate is defined by that test on the code, as R26 asks. -/
theorem haltedIsCauseNotZero : Obligations.HaltedIsCauseNotZero := fun _ => bne_iff_ne

end Sys2Proof.Machine
end

section
/-! Noninterference (10_state.md R29, R31): two machines with one engine state answer a word alike, whatever the
model's own fields hold. -/

namespace Sys2Proof.Machine

open Sys2Proof.Safety

/-- The second machine's outcome matches the first one's next state `t`: the same engine state and the same one
response word, each after the responses its machine had sent. -/
def AnswersAlike (s s' t : State) (outcome : Host.Outcome State Fault Refusal) : Prop :=
  ∃ t' r, outcome = .next t' ∧ SameEngine t t' ∧
    t.responses = s.responses ++ [r] ∧ t'.responses = s'.responses ++ [r]

section sameEngine
variable {s s' t : State}

theorem halted_of_sameEngine (h : SameEngine s s') : s'.halted = s.halted := by
  obtain ⟨-, -, -, -, -, hcause, -⟩ := h
  rw [State.halted, State.halted, State.causeCode, State.causeCode, hcause]

theorem violationIn_of_sameEngine (h : SameEngine s s') (c : CmdWord) :
    violationIn s' c = violationIn s c := by
  obtain ⟨hx, hy, hz, hbits, -, -, -⟩ := h
  rw [violationIn, violationIn, hx, hy, hz, hbits]

theorem voxelSlot_of_sameEngine (h : SameEngine s s') (x y z : Dim) :
    s'.voxelSlot x y z = s.voxelSlot x y z := by
  obtain ⟨hx, -, hz, -, -, -, -⟩ := h
  rw [State.voxelSlot, State.voxelSlot, hx, hz]

theorem respond_answersAlike (h : SameEngine s s') (status : BitVec 8) (data : Value) :
    AnswersAlike s s' (s.respond status data) (.next (s'.respond status data)) :=
  ⟨_, responseWord status data, rfl, h, rfl, rfl⟩

theorem raiseFault_answersAlike (h : SameEngine s s') (cause : Cause) (c : CmdWord) :
    AnswersAlike s s' (s.raiseFault cause c) (.next (s'.raiseFault cause c)) := by
  obtain ⟨hx, hy, hz, hbits, hbuf, -, -⟩ := h
  exact ⟨_, responseWord cause.code 0x0000#16, rfl, ⟨hx, hy, hz, hbits, hbuf, rfl, rfl⟩, rfl, rfl⟩

theorem storeSlot_answersAlike {slot : Nat} {v : Value} (h : SameEngine s s')
    (hs : storeSlot slot v s = .next t) : AnswersAlike s s' t (storeSlot slot v s') := by
  obtain ⟨buf, hw, rfl⟩ := storeSlot_cases hs
  obtain ⟨hx, hy, hz, hbits, hbuf, hcause, hinfo⟩ := h
  rw [hbuf, hbits] at hw
  rw [storeSlot, hw]
  exact ⟨_, responseWord statusOk 0x0000#16, rfl, ⟨hx, hy, hz, hbits, rfl, hcause, hinfo⟩, rfl, rfl⟩

theorem answerSlot_answersAlike {slot : Nat} (h : SameEngine s s')
    (hs : answerSlot slot s = .next t) : AnswersAlike s s' t (answerSlot slot s') := by
  obtain ⟨data, hr, rfl⟩ := answerSlot_cases hs
  have ⟨_, _, _, hbits, hbuf, _, _⟩ := h
  rw [hbuf, hbits] at hr
  rw [answerSlot, hr]
  exact respond_answersAlike h statusOk data

theorem effectOf_answersAlike {i : Instr} (h : SameEngine s s')
    (hs : effectOf s i = .next t) : AnswersAlike s s' t (effectOf s' i) := by
  have ⟨hx, hy, hz, _, _, _, _⟩ := h
  cases i with
  | pack w slot v => exact storeSlot_answersAlike h hs
  | unpack w slot v => exact answerSlot_answersAlike h hs
  | set w x y z v =>
    rw [effectOf, voxelSlot_of_sameEngine h]
    exact storeSlot_answersAlike h hs
  | get w x y z v =>
    rw [effectOf, voxelSlot_of_sameEngine h]
    exact answerSlot_answersAlike h hs
  | sizex w a b c v =>
    cases hs
    rw [effectOf, ← hx]
    exact respond_answersAlike h statusOk s.sizeX
  | sizey w a b c v =>
    cases hs
    rw [effectOf, ← hy]
    exact respond_answersAlike h statusOk s.sizeY
  | sizez w a b c v =>
    cases hs
    rw [effectOf, ← hz]
    exact respond_answersAlike h statusOk s.sizeZ

end sameEngine

/-- Settles O10: the halted test, the fault that the word calls for and the command's effect each read the engine
state alone. -/
theorem onlyTheEngineStateIsObserved : Obligations.OnlyTheEngineStateIsObserved := by
  intro s s' t c h hs
  change AnswersAlike s s' t (runWord c s')
  have hhalted := halted_of_sameEngine h
  have hviolation := violationIn_of_sameEngine h c
  rcases runWord_cases hs with ⟨hh, rfl⟩ | ⟨cause, hh, hv, rfl⟩ | ⟨i, hh, hv, hd, he⟩
  · rw [runWord_halted (hhalted.trans hh)]
    exact respond_answersAlike h statusHalted 0x0000#16
  · rw [runWord_violation (hhalted.trans hh) (hviolation.trans hv)]
    exact raiseFault_answersAlike h cause c
  · rw [runWord_clear (hhalted.trans hh) (hviolation.trans hv) hd]
    exact effectOf_answersAlike h he

end Sys2Proof.Machine
end

section
/-! SUPPORT. The slot arithmetic of 20_memory.md R43 and R44, and what a slot's bytes are as numbers (R45, R46): the
nibbles of a byte, and the value of a slot at each width. -/

namespace Sys2Proof.Machine

open Sys2Proof.Safety

/-! ### Slots and coordinates -/

theorem coordOf_slotOf {sizeX sizeZ x y z : Nat} (hx : x < sizeX) (hz : z < sizeZ) :
    coordOf sizeX sizeZ (slotOf sizeX sizeZ x y z) = (x, y, z) := by
  have hquot : ((y * sizeZ + z) * sizeX + x) / sizeX = y * sizeZ + z := by
    rw [Nat.mul_comm, Nat.mul_add_div (by omega), Nat.div_eq_of_lt hx, Nat.add_zero]
  have hy : (y * sizeZ + z) / sizeZ = y := by
    rw [Nat.mul_comm, Nat.mul_add_div (by omega), Nat.div_eq_of_lt hz, Nat.add_zero]
  rw [coordOf, slotOf, ← Nat.div_div_eq_div_mul, hquot, hy, Nat.mul_add_mod_self_right,
    Nat.mul_add_mod_self_right, Nat.mod_eq_of_lt hx, Nat.mod_eq_of_lt hz]

theorem slotOf_coordOf (sizeX sizeZ slot : Nat) :
    slotOf sizeX sizeZ (slot % sizeX) (slot / (sizeX * sizeZ)) (slot / sizeX % sizeZ) = slot := by
  rw [slotOf, ← Nat.div_div_eq_div_mul, Nat.div_add_mod', Nat.div_add_mod']

/-- Settles O15: the two formulas are inverse to each other on the coordinates and the slots in range. -/
theorem slotsAndCoordinatesCorrespond : Obligations.SlotsAndCoordinatesCorrespond := by
  intro sizeX sizeY sizeZ
  refine ⟨fun x y z hx hy hz => ⟨slotOf_lt hx hy hz, coordOf_slotOf hx hz⟩, fun slot hslot => ?_⟩
  have hpos : 0 < sizeX * sizeY * sizeZ := by omega
  have hX : 0 < sizeX := Nat.pos_of_ne_zero fun e => by simp [e] at hpos
  have hZ : 0 < sizeZ := Nat.pos_of_ne_zero fun e => by simp [e] at hpos
  have hy : slot / (sizeX * sizeZ) < sizeY := by
    rw [Nat.div_lt_iff_lt_mul (Nat.mul_pos hX hZ)]
    calc slot < sizeX * sizeY * sizeZ := hslot
      _ = sizeY * (sizeX * sizeZ) := by ring
  exact ⟨_, _, _, rfl, Nat.mod_lt _ hX, hy, Nat.mod_lt _ hZ, slotOf_coordOf sizeX sizeZ slot⟩

/-! ### The nibbles of a byte -/

/-- The nibble of a slot as a number (R45). -/
theorem nibbleOf_toNat (slot : Nat) (b : Byte) :
    (nibbleOf slot b).toNat = if slot % 2 = 0 then b.toNat % 16 else b.toNat / 16 := by
  have := b.isLt
  unfold nibbleOf
  split <;> simp only [BitVec.extractLsb'_toNat, Nat.shiftRight_eq_div_pow] <;> omega

/-- The byte with a nibble replaced, as a number (R46). -/
theorem withNibble_toNat {slot : Nat} (b : Byte) {v : Value} (hv : v.toNat < 16) :
    (withNibble slot b v).toNat =
      if slot % 2 = 0 then b.toNat / 16 * 16 + v.toNat else b.toNat % 16 + 16 * v.toNat := by
  have hsame := congrArg BitVec.toNat (nibbleOf_withNibble_same slot b v)
  have hother := congrArg BitVec.toNat
    (nibbleOf_withNibble_other (slot := slot) (other := slot + 1) b v (by omega) hv)
  rw [nibbleOf_toNat, BitVec.toNat_setWidth, Nat.mod_eq_of_lt hv] at hsame
  rw [nibbleOf_toNat, nibbleOf_toNat] at hother
  split at hsame
  · rw [if_neg (by omega), if_neg (by omega)] at hother
    rw [if_pos (by assumption)]
    omega
  · rw [if_pos (by omega), if_pos (by omega)] at hother
    rw [if_neg (by assumption)]
    omega

/-! ### The value of a slot at each width -/

@[simp] theorem slotValue_4 (m : Memory) (slot : Nat) : slotValue m 4#8 slot =
    (nibbleOf slot (lookupCell (slot / 2) m.cells)).setWidth 16 := rfl

@[simp] theorem slotValue_8 (m : Memory) (slot : Nat) : slotValue m 8#8 slot =
    (lookupCell slot m.cells).setWidth 16 := rfl

@[simp] theorem slotValue_16 (m : Memory) (slot : Nat) : slotValue m 16#8 slot =
    lookupCell (2 * slot + 1) m.cells ++ lookupCell (2 * slot) m.cells := rfl

theorem slotValue_4_toNat (m : Memory) (slot : Nat) : (slotValue m 4#8 slot).toNat =
    if slot % 2 = 0 then (lookupCell (slot / 2) m.cells).toNat % 16
    else (lookupCell (slot / 2) m.cells).toNat / 16 := by
  rw [slotValue_4, BitVec.toNat_setWidth_of_le (by decide), nibbleOf_toNat]

theorem slotValue_8_toNat (m : Memory) (slot : Nat) :
    (slotValue m 8#8 slot).toNat = (lookupCell slot m.cells).toNat := by
  rw [slotValue_8, BitVec.toNat_setWidth_of_le (by decide)]

theorem slotValue_16_toNat (m : Memory) (slot : Nat) : (slotValue m 16#8 slot).toNat =
    (lookupCell (2 * slot) m.cells).toNat + 256 * (lookupCell (2 * slot + 1) m.cells).toNat := by
  rw [slotValue_16]
  refine (toNat_append_eq _ _).trans ?_
  omega

/-- An existing slot's bytes hold its value, in the numbers of R45. -/
theorem slotHolds_slotValue {m : Memory} {bits : BitVec 8} {slot : Nat} (h : slotExists m bits slot) :
    SlotHolds m bits slot (slotValue m bits slot) := by
  rcases h with ⟨rfl, h⟩ | ⟨rfl, h⟩ | ⟨rfl, h⟩
  · exact ⟨fun _ => ⟨_, Memory.read_eq_ok h, slotValue_4_toNat m slot⟩, nofun, nofun⟩
  · exact ⟨nofun, fun _ => ⟨_, Memory.read_eq_ok h, slotValue_8_toNat m slot⟩, nofun⟩
  · exact ⟨nofun, nofun, fun _ => ⟨_, _, Memory.read_eq_ok (by omega), Memory.read_eq_ok h,
      slotValue_16_toNat m slot⟩⟩

/-- A slot's value is below 2 to the power of a width that the engine supports (R45). -/
theorem slotValue_lt (m : Memory) {bits : BitVec 8} (slot : Nat)
    (hb : bits = 4#8 ∨ bits = 8#8 ∨ bits = 16#8) : (slotValue m bits slot).toNat < 2 ^ bits.toNat := by
  rcases hb with rfl | rfl | rfl
  · rw [slotValue_4, BitVec.toNat_setWidth_of_le (by decide)]
    exact (nibbleOf slot _).isLt
  · rw [slotValue_8_toNat]
    exact (lookupCell slot m.cells).isLt
  · exact (slotValue m 16#8 slot).isLt

/-- A running engine is constructed: no configuration fault halted it (10_state.md R32). -/
theorem constructed_of_running {s : State} (h : Running s) : Constructed s := by
  obtain ⟨⟨-, -, -, hcons, -, -⟩, hcause⟩ := h
  exact hcons (by simp [hcause])

theorem bits_of_running {s : State} (h : Running s) :
    s.bits = 4#8 ∨ s.bits = 8#8 ∨ s.bits = 16#8 := by
  obtain ⟨-, -, -, hbits, -⟩ := constructed_of_running h
  exact hbits

/-- In a running engine a read of a slot below N answers the slot's value. -/
theorem codecRead_of_running {s : State} {slot : Nat} (h : Running s) (hslot : slot < s.slotCount) :
    codecRead s.buf s.bits slot = .ok (slotValue s.buf s.bits slot) :=
  codecRead_ok_iff.mpr ⟨constructed_slotExists (constructed_of_running h) hslot, rfl⟩

/-- Settles O11: a slot below N exists, and what is read is the number in its bytes. -/
theorem codecReadFollowsTheBytes : Obligations.CodecReadFollowsTheBytes := by
  intro s slot hs hslot
  exact ⟨_, codecRead_of_running hs hslot,
    slotHolds_slotValue (constructed_slotExists (constructed_of_running hs) hslot),
    slotValue_lt s.buf slot (bits_of_running hs)⟩

/-! ### What a write stores -/

theorem Memory.read_congr {m m' : Memory} {a : Nat} (hlen : m'.len = m.len)
    (h : lookupCell a m'.cells = lookupCell a m.cells) : m'.read a = m.read a := by
  rw [Memory.read, Memory.read, hlen, h]

/-- A write of a value that fits stores it in the slot's bytes and nowhere else, in the numbers of R46. -/
theorem slotStored_of_codecWrite {m m' : Memory} {bits : BitVec 8} {slot : Nat} {v : Value}
    (hm : m.wf) (hv : v.toNat < 2 ^ bits.toNat) (h : codecWrite m bits slot v = .ok m') :
    SlotStored m m' bits slot v := by
  have hvalue := v.isLt
  rcases codecWrite_width h with rfl | rfl | rfl
  · obtain ⟨hslot, hlen, -, hbyte⟩ := codecWrite_4_spec h hm
    refine ⟨hlen, fun _ => ⟨⟨_, _, Memory.read_eq_ok hslot, Memory.read_eq_ok (by omega), ?_⟩,
      fun a ha => Memory.read_congr hlen (by rw [hbyte, if_neg ha])⟩, nofun, nofun⟩
    rw [hbyte, if_pos rfl, withNibble_toNat _ (by simpa using hv)]
  · obtain ⟨hslot, hlen, -, hbyte⟩ := codecWrite_8_spec h hm
    refine ⟨hlen, nofun, fun _ => ⟨⟨_, Memory.read_eq_ok (by omega), ?_⟩,
      fun a ha => Memory.read_congr hlen (by rw [hbyte, if_neg ha])⟩, nofun⟩
    rw [hbyte, if_pos rfl, BitVec.toNat_setWidth, Nat.mod_eq_of_lt (by simpa using hv)]
  · obtain ⟨hslot, hlen, -, hbyte⟩ := codecWrite_16_spec h hm
    refine ⟨hlen, nofun, nofun, fun _ => ⟨⟨_, _, Memory.read_eq_ok (by omega),
      Memory.read_eq_ok (by omega), ?_, ?_⟩, fun a hlo hhi => Memory.read_congr hlen ?_⟩⟩
    · rw [hbyte, if_neg (by omega), if_pos rfl, BitVec.extractLsb'_toNat, Nat.shiftRight_zero]
    · rw [hbyte, if_pos rfl, BitVec.extractLsb'_toNat, Nat.shiftRight_eq_div_pow]
      omega
    · rw [hbyte, if_neg hhi, if_neg hlo]

/-- Settles O12: a slot below N exists, and the write stores into its bytes. -/
theorem codecWriteFollowsTheBytes : Obligations.CodecWriteFollowsTheBytes := by
  intro s slot v hs hslot hv
  have ⟨⟨_, hwf, _⟩, _⟩ := hs
  obtain ⟨m', hw⟩ := codecWrite_eq_ok v (constructed_slotExists (constructed_of_running hs) hslot)
  exact ⟨m', hw, slotStored_of_codecWrite hwf hv hw⟩

end Sys2Proof.Machine
end

section
/-! The codec as one bit string (20_memory.md R48, R49): the slots are disjoint runs of the buffer's bits, so that a
write is read back and leaves every other slot alone; and the bytes of the image, each from the slots in it (R52). -/

namespace Sys2Proof.Machine

open Sys2Proof.Safety

/-! ### The read-after-write laws -/

/-- The slot written holds the value, where it fits. -/
theorem slotValue_codecWrite_same {m m' : Memory} {bits : BitVec 8} {slot : Nat} {v : Value}
    (hm : m.wf) (hv : v.toNat < 2 ^ bits.toNat) (h : codecWrite m bits slot v = .ok m') :
    slotValue m' bits slot = v := by
  rcases codecWrite_width h with rfl | rfl | rfl
  · obtain ⟨-, -, -, hbyte⟩ := codecWrite_4_spec h hm
    rw [slotValue_4, hbyte, if_pos rfl, nibbleOf_withNibble_same]
    replace hv : v.toNat < 16 := hv
    refine BitVec.eq_of_toNat_eq ?_
    simp only [BitVec.toNat_setWidth]
    omega
  · obtain ⟨-, -, -, hbyte⟩ := codecWrite_8_spec h hm
    rw [slotValue_8, hbyte, if_pos rfl]
    replace hv : v.toNat < 256 := hv
    refine BitVec.eq_of_toNat_eq ?_
    simp only [BitVec.toNat_setWidth]
    omega
  · obtain ⟨-, -, -, hbyte⟩ := codecWrite_16_spec h hm
    refine BitVec.eq_of_toNat_eq ?_
    rw [slotValue_16_toNat, hbyte, hbyte, if_pos rfl, if_neg (by omega), if_pos rfl]
    simp only [BitVec.extractLsb'_toNat, Nat.shiftRight_eq_div_pow]
    omega

/-- Every other slot holds what it held, in range or not. -/
theorem slotValue_codecWrite_other {m m' : Memory} {bits : BitVec 8} {slot other : Nat} {v : Value}
    (hm : m.wf) (hv : v.toNat < 2 ^ bits.toNat) (h : codecWrite m bits slot v = .ok m')
    (hne : other ≠ slot) : slotValue m' bits other = slotValue m bits other := by
  rcases codecWrite_width h with rfl | rfl | rfl
  · rw [slotValue_4, slotValue_4, codecWrite_4_nibble_other h hm (by simpa using hv) hne]
  · obtain ⟨-, -, -, hbyte⟩ := codecWrite_8_spec h hm
    rw [slotValue_8, slotValue_8, hbyte, if_neg hne]
  · obtain ⟨-, -, -, hbyte⟩ := codecWrite_16_spec h hm
    rw [slotValue_16, slotValue_16, hbyte, hbyte, if_neg (by omega), if_neg (by omega),
      if_neg (by omega), if_neg (by omega)]

/-- What a 16-bit read answers, and the byte it stops at where it does not. -/
theorem Memory.read16_eq (m : Memory) (a : Nat) : m.read16 a =
    if a + 1 < m.len then .ok (lookupCell (a + 1) m.cells ++ lookupCell a m.cells)
    else .error (.noSuchByte (if a < m.len then a + 1 else a)) := by
  split
  next h => exact Memory.read16_eq_ok h
  next h =>
    split
    next ha => rw [Memory.read16, Memory.read_eq_ok ha, Memory.read_eq_error (by omega)]
    next ha => rw [Memory.read16, Memory.read_eq_error (by omega)]

/-- A read depends on the buffer's length and the slot's value alone, the stops included. -/
theorem codecRead_congr {m m' : Memory} {bits : BitVec 8} {slot : Nat}
    (hb : bits = 4#8 ∨ bits = 8#8 ∨ bits = 16#8) (hlen : m'.len = m.len)
    (h : slotValue m' bits slot = slotValue m bits slot) :
    codecRead m' bits slot = codecRead m bits slot := by
  rcases hb with rfl | rfl | rfl
  · rw [codecRead_4, codecRead_4, ← slotValue_4, ← slotValue_4, h, hlen]
  · rw [codecRead_8, codecRead_8, ← slotValue_8, ← slotValue_8, h, hlen]
  · rw [codecRead_16, codecRead_16, Memory.read16_eq, Memory.read16_eq, ← slotValue_16,
      ← slotValue_16, h, hlen]

/-- Settles O13: the write keeps the length, and the values of the slots follow the two laws. -/
theorem codecReadsBackWhatItWrote : Obligations.CodecReadsBackWhatItWrote := by
  intro m m' bits slot v hm hv h
  have hb := codecWrite_width h
  have hlen := codecWrite_len h
  obtain ⟨-, -, hexists⟩ := codecWrite_keeps h hm
  refine ⟨codecRead_ok_iff.mpr ⟨?_, slotValue_codecWrite_same hm hv h⟩, fun other hne =>
    codecRead_congr hb hlen (slotValue_codecWrite_other hm hv h hne)⟩
  rwa [slotExists, hlen]

/-! ### Buffer bits -/

theorem Memory.bit_eq (m : Memory) {k a i : Nat} (hi : i < 8) (hk : k = 8 * a + i) :
    m.bit k = (lookupCell a m.cells).getLsbD i := by
  rw [Memory.bit, hk, Nat.mul_add_div (by omega), Nat.div_eq_of_lt hi, Nat.mul_add_mod,
    Nat.mod_eq_of_lt hi, Nat.add_zero]

/-- The bits of a slot's value are the buffer bits from the slot times the width on (R48). -/
theorem slotValue_getLsbD (m : Memory) {bits : BitVec 8} (slot j : Nat)
    (hb : bits = 4#8 ∨ bits = 8#8 ∨ bits = 16#8) : (slotValue m bits slot).getLsbD j =
      (decide (j < bits.toNat) && m.bit (slot * bits.toNat + j)) := by
  by_cases hj : j < bits.toNat
  case neg =>
    rw [decide_eq_false hj, Bool.false_and]
    exact Nat.testBit_lt_two_pow ((slotValue_lt m slot hb).trans_le
      (Nat.pow_le_pow_right (by decide) (by omega)))
  rw [decide_eq_true hj, Bool.true_and]
  rcases hb with rfl | rfl | rfl
  · replace hj : j < 4 := hj
    rw [slotValue_4, BitVec.getLsbD_setWidth, decide_eq_true (by omega), Bool.true_and, nibbleOf]
    split
    next heven =>
      rw [BitVec.getLsbD_extractLsb', decide_eq_true hj, Bool.true_and]
      exact (m.bit_eq (by omega) (by simp only [BitVec.toNat_ofNat]; omega)).symm
    next hodd =>
      rw [BitVec.getLsbD_extractLsb', decide_eq_true hj, Bool.true_and]
      exact (m.bit_eq (by omega) (by simp only [BitVec.toNat_ofNat]; omega)).symm
  · replace hj : j < 8 := hj
    rw [slotValue_8, BitVec.getLsbD_setWidth, decide_eq_true (by omega), Bool.true_and]
    exact (m.bit_eq hj (by simp only [BitVec.toNat_ofNat]; omega)).symm
  · replace hj : j < 16 := hj
    rw [slotValue_16]
    refine (BitVec.getLsbD_append ..).trans ?_
    split
    next hlo => exact (m.bit_eq hlo (by simp only [BitVec.toNat_ofNat]; omega)).symm
    next hhi => exact (m.bit_eq (by omega) (by simp only [BitVec.toNat_ofNat]; omega)).symm

theorem width_pos {bits : BitVec 8} (hb : bits = 4#8 ∨ bits = 8#8 ∨ bits = 16#8) :
    0 < bits.toNat := by
  rcases hb with rfl | rfl | rfl <;> decide

/-- Every buffer bit is a bit of exactly one slot's value (R48). -/
theorem Memory.bit_eq_slotValue (m : Memory) {bits : BitVec 8} (k : Nat)
    (hb : bits = 4#8 ∨ bits = 8#8 ∨ bits = 16#8) :
    m.bit k = (slotValue m bits (k / bits.toNat)).getLsbD (k % bits.toNat) := by
  rw [slotValue_getLsbD m _ _ hb, decide_eq_true (Nat.mod_lt k (width_pos hb)), Bool.true_and,
    Nat.div_add_mod']

/-- A write changes the bits of its own slot, to those of the value, and no other bit: each other bit belongs to
another slot. -/
theorem codecWrite_bit {m m' : Memory} {bits : BitVec 8} {slot : Nat} {v : Value}
    (hm : m.wf) (hv : v.toNat < 2 ^ bits.toNat) (h : codecWrite m bits slot v = .ok m') (k : Nat) :
    m'.bit k = if slot * bits.toNat ≤ k ∧ k < slot * bits.toNat + bits.toNat then
      v.getLsbD (k - slot * bits.toNat) else m.bit k := by
  have hb := codecWrite_width h
  split
  next hk =>
    have hj := slotValue_getLsbD m' slot (k - slot * bits.toNat) hb
    rwa [slotValue_codecWrite_same hm hv h, decide_eq_true (by omega), Bool.true_and,
      Nat.add_sub_cancel' hk.1, eq_comm] at hj
  next hk =>
    have hne : k / bits.toNat ≠ slot := fun e => by
      have hlo := Nat.div_mul_le_self k bits.toNat
      have hhi := Nat.lt_div_mul_add (a := k) (width_pos hb)
      rw [e] at hlo hhi
      exact hk ⟨hlo, hhi⟩
    rw [m'.bit_eq_slotValue k hb, slotValue_codecWrite_other hm hv h hne, ← m.bit_eq_slotValue k hb]

/-- Settles O14: a read answers a run of buffer bits, and a write replaces that run and no other bit. -/
theorem codecIsOneBitStringAtEveryWidth : Obligations.CodecIsOneBitStringAtEveryWidth := by
  intro m bits slot hm
  refine ⟨fun v h j => ?_, fun v m' hv h => codecWrite_bit hm hv h⟩
  obtain ⟨-, rfl⟩ := codecRead_ok_iff.mp h
  exact slotValue_getLsbD m slot j (codecRead_width h)

/-! ### The byte image -/

theorem slotExists_4 {m : Memory} {slot : Nat} : slotExists m 4#8 slot ↔ slot / 2 < m.len := by
  simp [slotExists]

theorem slotExists_8 {m : Memory} {slot : Nat} : slotExists m 8#8 slot ↔ slot < m.len := by
  simp [slotExists]

theorem slotExists_16 {m : Memory} {slot : Nat} : slotExists m 16#8 slot ↔ 2 * slot + 1 < m.len := by
  simp [slotExists]

theorem Memory.image_getElem? {m : Memory} {a : Nat} (h : a < m.len) :
    m.image[a]? = some (lookupCell a m.cells) := by
  rw [Memory.image, List.getElem?_map, List.getElem?_range h, Option.map_some]

/-- An existing 8-bit slot is its byte of the image. -/
theorem image_of_slot_8 {m : Memory} {i : Nat} (h : slotExists m 8#8 i) :
    m.image[i]? = some ((slotValue m 8#8 i).extractLsb' 0 8) := by
  rw [Memory.image_getElem? (slotExists_8.mp h)]
  refine congrArg some (BitVec.eq_of_toNat_eq ?_)
  rw [BitVec.extractLsb'_toNat, slotValue_8_toNat, Nat.shiftRight_zero, Nat.mod_eq_of_lt (BitVec.isLt _)]

/-- An existing 16-bit slot is two bytes of the image, the low one first. -/
theorem image_of_slot_16 {m : Memory} {i : Nat} (h : slotExists m 16#8 i) :
    m.image[2 * i]? = some ((slotValue m 16#8 i).extractLsb' 0 8) ∧
      m.image[2 * i + 1]? = some ((slotValue m 16#8 i).extractLsb' 8 8) := by
  have hlo := (lookupCell (2 * i) m.cells).isLt
  have hhi := (lookupCell (2 * i + 1) m.cells).isLt
  rw [slotExists_16] at h
  rw [Memory.image_getElem? h, Memory.image_getElem? (by omega)]
  refine ⟨congrArg some (BitVec.eq_of_toNat_eq ?_), congrArg some (BitVec.eq_of_toNat_eq ?_)⟩ <;>
    rw [BitVec.extractLsb'_toNat, slotValue_16_toNat, Nat.shiftRight_eq_div_pow] <;> omega

/-- Two 4-bit slots are one byte of the image, the even one in its low nibble. -/
theorem image_of_slots_4 {m : Memory} {i : Nat} (h : slotExists m 4#8 (2 * i)) :
    m.image[i]? = some
      (BitVec.ofNat 8 ((slotValue m 4#8 (2 * i)).toNat + 16 * (slotValue m 4#8 (2 * i + 1)).toNat)) := by
  have hbyte := (lookupCell i m.cells).isLt
  have heven : 2 * i / 2 = i := by omega
  have hodd : (2 * i + 1) / 2 = i := by omega
  rw [slotExists_4, heven] at h
  rw [Memory.image_getElem? h]
  refine congrArg some (BitVec.eq_of_toNat_eq ?_)
  rw [slotValue_4_toNat, slotValue_4_toNat, if_pos (by omega), if_neg (by omega), heven, hodd,
    BitVec.toNat_ofNat]
  omega

/-- A zero pad nibble, as the value of the slot one past the last of an odd number of 4-bit slots. -/
theorem slotValue_pad {m : Memory} {n : Nat} (hodd : n % 2 = 1)
    (h : (lookupCell (packedBytes n 4#8 - 1) m.cells).extractLsb' 4 4 = 0#4) :
    slotValue m 4#8 n = 0#16 := by
  rw [padNibble_eq_nibbleOf _ hodd] at h
  rw [slotValue_4, h]
  rfl

/-- With a zero pad nibble the last 4-bit slot of an odd number is the last byte of the image. -/
theorem image_of_last_slot_4 {m : Memory} {n : Nat} (h : slotExists m 4#8 (n - 1)) (hodd : n % 2 = 1)
    (hpad : (lookupCell (packedBytes n 4#8 - 1) m.cells).extractLsb' 4 4 = 0#4) :
    m.image[packedBytes n 4#8 - 1]? = some ((slotValue m 4#8 (n - 1)).extractLsb' 0 8) := by
  have hbytes : packedBytes n 4#8 - 1 = (n - 1) / 2 := by
    simp only [packedBytes, BitVec.toNat_ofNat]
    omega
  have hlast : 2 * ((n - 1) / 2) = n - 1 := by omega
  have hnext : n - 1 + 1 = n := by omega
  rw [hbytes, image_of_slots_4 (by rwa [hlast]), hlast, hnext, slotValue_pad hodd hpad]
  refine congrArg some (BitVec.eq_of_toNat_eq ?_)
  rw [BitVec.extractLsb'_toNat]
  rfl

/-- Settles O45: every slot read below N exists, and its value is in the image at the width's place. -/
theorem byteImageIsComputedFromReads : Obligations.ByteImageIsComputedFromReads := by
  intro s hs
  have hcons := constructed_of_running hs
  have hexists : ∀ i, i < s.slotCount → slotExists s.buf s.bits i :=
    fun i hi => constructed_slotExists hcons hi
  have hread : ∀ i, i < s.slotCount → codecRead s.buf s.bits i = .ok (slotValue s.buf s.bits i) :=
    fun i hi => codecRead_of_running hs hi
  obtain ⟨-, -, -, -, hlen, -, hpad⟩ := hcons
  refine ⟨by rw [Memory.image, List.length_map, List.length_range, hlen], fun hb i hi => ?_,
    fun hb i hi => ?_, fun hb i hi => ?_, fun hb hodd => ?_⟩
  all_goals rw [hb] at hexists hread ⊢
  · exact ⟨_, hread i hi, image_of_slot_8 (hexists i hi)⟩
  · exact ⟨_, hread i hi, image_of_slot_16 (hexists i hi)⟩
  · exact ⟨_, _, hread (2 * i) (by omega), hread (2 * i + 1) hi,
      image_of_slots_4 (hexists (2 * i) (by omega))⟩
  · have hzero := hpad hb hodd
    rw [State.bufferLength, hb] at hzero ⊢
    have hlast : s.slotCount - 1 < s.slotCount := by omega
    exact ⟨_, hread _ hlast, image_of_last_slot_4 (hexists _ hlast) hodd hzero⟩

end Sys2Proof.Machine
end

section
/-! SUPPORT. What a command stores (20_memory.md R51, R53): PACK and SET store one value into one slot, and the other
five commands write no byte. -/

namespace Sys2Proof.Machine

open Sys2Proof.Safety

/-- The slot and the value that a command's effect stores, if it is one of the two that store. -/
def storeOf (s : State) : Instr → Option (Nat × Value)
  | .pack _ slot v => some (slot.toNat, v)
  | .set _ x y z v => some (s.voxelSlot x y z, v)
  | .unpack _ _ _ | .get _ _ _ _ _ | .sizex _ _ _ _ _ | .sizey _ _ _ _ _ | .sizez _ _ _ _ _ => none

/-- The bits of a command's word name the same store. -/
theorem storedBy_encode (s : State) (i : Instr) : storedBy s.sizeX s.sizeZ (encode i) =
    (storeOf s i).map fun p => (p.1, p.2.toNat) := by
  have hop := opOf_encode i
  unfold storedBy
  cases i with
  | pack w slot v =>
    have hslot : slotNumber (encode (.pack w slot v)) = slot.toNat := slotNumber_formatSlot ..
    have hv : vOf (encode (.pack w slot v)) = v.toNat := vOf_formatC ..
    rw [hop, hslot, hv]
    rfl
  | set w x y z v =>
    have hx : aOf (encode (.set w x y z v)) = x.toNat := aOf_formatC ..
    have hy : bOf (encode (.set w x y z v)) = y.toNat := bOf_formatC ..
    have hz : cOf (encode (.set w x y z v)) = z.toNat := cOf_formatC ..
    have hv : vOf (encode (.set w x y z v)) = v.toNat := vOf_formatC ..
    rw [hop, hx, hy, hz, hv]
    rfl
  | unpack | get | sizex | sizey | sizez => rw [hop]; rfl

/-- A command that stores has the effect of its store. -/
theorem effectOf_of_storeOf {s : State} {i : Instr} {slot : Nat} {v : Value}
    (h : storeOf s i = some (slot, v)) : effectOf s i = storeSlot slot v s := by
  cases i <;> cases h <;> rfl

/-- A command that stores nothing changes nothing but the responses. -/
theorem effectOf_of_storeOf_none {s t : State} {i : Instr} (h : storeOf s i = none)
    (he : effectOf s i = .next t) : ∃ data, t = s.respond statusOk data := by
  cases i with
  | pack | set => cases h
  | unpack | get =>
    obtain ⟨data, -, e⟩ := answerSlot_cases he
    exact ⟨data, e⟩
  | sizex | sizey | sizez =>
    cases he
    exact ⟨_, rfl⟩

/-- A value that passes a storing command's checks fits the width. -/
theorem storeOf_fits {s : State} {i : Instr} {slot : Nat} {v : Value}
    (h : storeOf s i = some (slot, v)) (hv : firstViolation (checksOf s i) = none) :
    v.toNat < 2 ^ s.bits.toNat := by
  cases i with
  | pack | set =>
    cases h
    simp only [checksOf, firstViolation_cons_eq_none, State.valueOutOfRange,
      decide_eq_false_iff_not, not_le] at hv
    obtain ⟨-, -, hfit, -⟩ := hv
    exact hfit
  | unpack | get | sizex | sizey | sizez => cases h

/-- Settles O24: a halted engine and a command's own effect change the responses alone, and a fault changes FAULT,
its cause never being the one a running engine has. -/
theorem readingCommandsChangeNothing : Obligations.ReadingCommandsChangeNothing := by
  intro s t i hpack hset h
  have hstore : storeOf s i = none := by
    cases i with
    | pack w slot v => exact absurd rfl (hpack w slot v)
    | set w x y z v => exact absurd rfl (hset w x y z v)
    | unpack | get | sizex | sizey | sizez => rfl
  rcases exec_cases h with ⟨-, rfl⟩ | ⟨cause, hh, hv, rfl⟩ | ⟨-, -, he⟩
  · exact ⟨rfl, rfl, rfl, rfl, rfl, fun _ => rfl⟩
  · refine ⟨rfl, rfl, rfl, rfl, rfl, fun hsame => ?_⟩
    have hcause : cause = .noFault := hsame.trans (s.halted_eq_false_iff.mp hh)
    rcases checksOf_causes hv with rfl | rfl | rfl | rfl | rfl <;> cases hcause
  · obtain ⟨data, rfl⟩ := effectOf_of_storeOf_none hstore he
    exact ⟨rfl, rfl, rfl, rfl, rfl, fun _ => rfl⟩

/-! ### The latest store (R53) -/

theorem lastStored_singleton (sizeX sizeZ : Dim) (slot : Nat) (c : CmdWord) :
    lastStored sizeX sizeZ slot [c] =
      (storedBy sizeX sizeZ c).bind fun p => if p.1 = slot then some p.2 else none := by
  rw [lastStored, lastStored]
  cases storedBy sizeX sizeZ c <;> rfl

/-- The latest store of two lists in a row is that of the second, if it has one. -/
theorem lastStored_append (sizeX sizeZ : Dim) (slot : Nat) (xs ys : List CmdWord) :
    lastStored sizeX sizeZ slot (xs ++ ys) =
      (lastStored sizeX sizeZ slot ys).or (lastStored sizeX sizeZ slot xs) := by
  induction xs with
  | nil => exact Option.or_none.symm
  | cons c xs ih =>
    rw [List.cons_append, lastStored, lastStored, ih]
    cases lastStored sizeX sizeZ slot ys <;> rfl

/-- A word that raises no fault leaves in every slot what it stores there, or what was there. -/
theorem slotValue_runWord {s t : State} {c : CmdWord} (hwf : s.buf.wf) (h : runWord c s = .next t)
    (ht : t.faultCause = .noFault) (slot : Nat) : (slotValue t.buf t.bits slot).toNat =
      (lastStored s.sizeX s.sizeZ slot [c]).getD (slotValue s.buf s.bits slot).toNat := by
  rcases runWord_cases h with ⟨hh, rfl⟩ | ⟨cause, -, hv, rfl⟩ | ⟨i, -, hv, hd, he⟩
  · exact absurd ht (s.halted_iff.mp hh)
  · obtain ⟨hcause, -, -⟩ := violationIn_is_command_cause hv
    exact absurd ht hcause
  rw [violationIn_of_decode_command hd] at hv
  rw [lastStored_singleton, ← encode_of_decode hd, storedBy_encode]
  cases hstore : storeOf s i with
  | none =>
    obtain ⟨data, rfl⟩ := effectOf_of_storeOf_none hstore he
    rfl
  | some p =>
    obtain ⟨k, v⟩ := p
    rw [effectOf_of_storeOf hstore] at he
    obtain ⟨buf, hw, rfl⟩ := storeSlot_cases he
    have hfit := storeOf_fits hstore hv
    rw [Option.map_some, Option.bind_some, State.respond_buf, State.respond_bits]
    by_cases hk : k = slot
    · rw [if_pos hk, Option.getD_some, ← hk, slotValue_codecWrite_same hwf hfit hw]
    · rw [if_neg hk, Option.getD_none, slotValue_codecWrite_other hwf hfit hw (Ne.symm hk)]

end Sys2Proof.Machine
end

section
/-! Runs over a list of command words: what every word keeps the run keeps, and every slot ends with the latest value
stored to it (20_memory.md R53). -/

namespace Sys2Proof.Machine

open Sys2Proof.Safety

/-! ### A run, one word at a time -/

theorem run_succ_of_step {M : Host.Core} {s s' : M.State} (n : Nat) (h : M.step s = .next s') :
    M.run (n + 1) s = M.run n s' := by
  rw [Host.Core.run, h]

theorem run_succ_cases {M : Host.Core} {s t : M.State} {n : Nat} (h : M.run (n + 1) s = .next t) :
    ∃ s', M.step s = .next s' ∧ M.run n s' = .next t := by
  rw [Host.Core.run] at h
  split at h
  · exact ⟨_, by assumption, h⟩
  · cases h
  · cases h

/-- No word touches the host's list (10_state.md R28). -/
theorem runWord_keeps_pending {s t : State} {c : CmdWord} (h : runWord c s = .next t) :
    t.pending = s.pending := by
  rcases runWord_cases h with ⟨-, rfl⟩ | ⟨cause, -, -, rfl⟩ | ⟨i, -, -, -, he⟩
  · rfl
  · rfl
  · rcases effectOf_cases he with ⟨slot, v, buf, -, rfl⟩ | ⟨data, rfl⟩ <;> rfl

/-- The first word of a run, and the run over the other words. -/
theorem run_words_cons {s t : State} {c : CmdWord} {rest : List CmdWord}
    (hp : s.pending = (c :: rest).map .command)
    (h : Host.Core.run Sys2Proof.core (c :: rest).length s = .next t) :
    ∃ s', runWord c { s with pending := rest.map .command } = .next s' ∧
      s'.pending = rest.map .command ∧ Host.Core.run Sys2Proof.core rest.length s' = .next t := by
  obtain ⟨s', hstep, hrun⟩ := run_succ_cases h
  replace hstep : step s = .next s' := hstep
  rw [step_of_pending_command hp] at hstep
  exact ⟨s', hstep, runWord_keeps_pending hstep, hrun⟩

/-- What every word keeps, and does not depend on the host's list, a run over words keeps. -/
theorem run_words_keep {P : State → Prop} (hpending : ∀ s rest, P s → P { s with pending := rest })
    (hword : ∀ s t c, P s → runWord c s = .next t → P t) {s t : State} {words : List CmdWord}
    (hs : P s) (hp : s.pending = words.map .command)
    (h : Host.Core.run Sys2Proof.core words.length s = .next t) : P t := by
  induction words generalizing s with
  | nil => cases h; exact hs
  | cons c rest ih =>
    obtain ⟨s', hrun, hp', h'⟩ := run_words_cons hp h
    exact ih (hword _ _ _ (hpending s _ hs) hrun) hp' h'

theorem run_words_keep_inv {s t : State} {words : List CmdWord} (hs : Inv s)
    (hp : s.pending = words.map .command)
    (h : Host.Core.run Sys2Proof.core words.length s = .next t) : Inv t :=
  run_words_keep (P := Inv) (fun _ _ h => h) (fun _ _ _ => runWord_keeps_inv) hs hp h

theorem run_words_keep_configuration {s t : State} {words : List CmdWord}
    (hp : s.pending = words.map .command)
    (h : Host.Core.run Sys2Proof.core words.length s = .next t) :
    t.sizeX = s.sizeX ∧ t.sizeY = s.sizeY ∧ t.sizeZ = s.sizeZ ∧ t.bits = s.bits := by
  refine run_words_keep (P := fun u => u.sizeX = s.sizeX ∧ u.sizeY = s.sizeY ∧ u.sizeZ = s.sizeZ ∧
    u.bits = s.bits) (fun _ _ h => h) (fun u u' c hu hrun => ?_) ⟨rfl, rfl, rfl, rfl⟩ hp h
  obtain ⟨hx, hy, hz, hbits, -⟩ := runWord_keeps_configuration hrun
  obtain ⟨ux, uy, uz, ubits⟩ := hu
  exact ⟨hx.trans ux, hy.trans uy, hz.trans uz, hbits.trans ubits⟩

/-- A latched fault stays latched through any words (60_exceptions.md R149): a run that ends with none had none. -/
theorem noFault_of_run_words {s t : State} {words : List CmdWord}
    (hp : s.pending = words.map .command)
    (h : Host.Core.run Sys2Proof.core words.length s = .next t) (ht : t.faultCause = .noFault) :
    s.faultCause = .noFault := by
  by_contra hs
  refine run_words_keep (P := fun u => u.faultCause ≠ .noFault) (fun _ _ h => h)
    (fun u u' c hu hrun => ?_) hs hp h ht
  rw [runWord_halted (u.halted_iff.mpr hu)] at hrun
  cases hrun
  exact hu

/-! ### The slots after a run -/

/-- After a run that raised no fault every slot holds its latest store, or what it held before. -/
theorem slotValue_run_words {s t : State} {words : List CmdWord} (hs : Inv s)
    (hp : s.pending = words.map .command)
    (h : Host.Core.run Sys2Proof.core words.length s = .next t) (ht : t.faultCause = .noFault)
    (slot : Nat) : (slotValue t.buf t.bits slot).toNat =
      (lastStored s.sizeX s.sizeZ slot words).getD (slotValue s.buf s.bits slot).toNat := by
  induction words generalizing s with
  | nil => cases h; rfl
  | cons c rest ih =>
    obtain ⟨s', hrun, hp', h'⟩ := run_words_cons hp h
    have hinv : Inv s' := runWord_keeps_inv (s := { s with pending := rest.map .command }) hs hrun
    obtain ⟨hx, -, hz, -, -⟩ : s'.sizeX = s.sizeX ∧ _ ∧ s'.sizeZ = s.sizeZ ∧ _ ∧ _ :=
      runWord_keeps_configuration (s := { s with pending := rest.map .command }) hrun
    have ⟨_, hwf, _⟩ := hs
    have hfirst : (slotValue s'.buf s'.bits slot).toNat =
        (lastStored s.sizeX s.sizeZ slot [c]).getD (slotValue s.buf s.bits slot).toNat :=
      slotValue_runWord (s := { s with pending := rest.map .command }) hwf hrun
        (noFault_of_run_words hp' h' ht) slot
    rw [ih hinv hp' h', hx, hz, hfirst, ← Option.getD_or, ← lastStored_append, List.singleton_append]

/-- Settles O44: a slot below N is read before and after the run, and its value is the latest store's. -/
theorem everySlotHoldsTheLatestStore : Obligations.EverySlotHoldsTheLatestStore := by
  intro s t words hs hp h ht slot hslot
  obtain ⟨hx, hy, hz, -⟩ := run_words_keep_configuration hp h
  have hslot' : slot < t.slotCount := by rwa [State.slotCount, hx, hy, hz]
  have hrunning : Running t := ⟨run_words_keep_inv hs.1 hp h, ht⟩
  exact ⟨_, _, codecRead_of_running hs hslot, codecRead_of_running hrunning hslot',
    slotValue_run_words hs.1 hp h ht slot⟩

end Sys2Proof.Machine
end

section
/-! Loading a byte image (20_memory.md R52): commands that call for no fault run to the end, and two buffers in
canonical form are equal if their slots hold the same values. -/

namespace Sys2Proof.Machine

open Sys2Proof.Safety

/-! ### A run of words that call for no fault -/

/-- A running engine executes a word that calls for no fault, and raises none. -/
theorem runWord_answers_of_clear {s : State} {c : CmdWord} (hs : Running s)
    (hv : violationIn s c = none) : ∃ t, runWord c s = .next t ∧ t.faultCause = .noFault := by
  have hh := s.halted_eq_false_iff.mpr hs.2
  obtain ⟨i, hd⟩ := exists_decode_of_clear hv
  have hrun := runWord_clear hh hv hd
  rw [violationIn_of_decode_command hd] at hv
  obtain ⟨t, he⟩ := effectOf_answers (constructed_of_running hs) hv
  refine ⟨t, hrun.trans he, ?_⟩
  rcases effectOf_cases he with ⟨slot, v, buf, -, rfl⟩ | ⟨data, rfl⟩ <;> exact hs.2

/-- What a word calls for depends on the configuration, which no word changes. -/
theorem violationIn_of_runWord {s t : State} {c : CmdWord} (h : runWord c s = .next t)
    (c' : CmdWord) : violationIn t c' = violationIn s c' := by
  obtain ⟨hx, hy, hz, hbits, -⟩ := runWord_keeps_configuration h
  rw [violationIn, violationIn, hx, hy, hz, hbits]

/-- Words that call for no fault run to the end, with no fault latched. -/
theorem run_words_answers_of_clear {s : State} {words : List CmdWord} (hs : Running s)
    (hp : s.pending = words.map .command) (hv : ∀ c ∈ words, violationIn s c = none) :
    ∃ t : State, Host.Core.run Sys2Proof.core words.length s = .next t ∧ t.faultCause = .noFault := by
  induction words generalizing s with
  | nil => exact ⟨s, rfl, hs.2⟩
  | cons c rest ih =>
    have hu : Running { s with pending := rest.map .command } := hs
    obtain ⟨s', hrun, hcause⟩ := runWord_answers_of_clear hu (hv c List.mem_cons_self)
    have hstep : step s = .next s' := (step_of_pending_command hp).trans hrun
    have hclear : ∀ c' ∈ rest, violationIn s' c' = none := fun c' hc' =>
      (violationIn_of_runWord hrun c').trans (hv c' (List.mem_cons_of_mem c hc'))
    obtain ⟨t, ht, hend⟩ :=
      ih ⟨runWord_keeps_inv hu.1 hrun, hcause⟩ (runWord_keeps_pending hrun) hclear
    exact ⟨t, (run_succ_of_step (M := Sys2Proof.core) rest.length hstep).trans ht, hend⟩

/-! ### The PACK commands of an image -/

/-- The PACK command that stores into a slot the value it has in a buffer. -/
def packOf (bits : BitVec 8) (m : Memory) (slot : Nat) : Instr :=
  .pack bits (BitVec.ofNat 48 slot) (slotValue m bits slot)

/-- The load commands of a buffer that holds the slots are their PACK commands. -/
theorem loadCommands_eq {bits : BitVec 8} {m : Memory} {n : Nat}
    (h : ∀ slot, slot < n → slotExists m bits slot) :
    loadCommands bits m n = (List.range n).map fun slot => encode (packOf bits m slot) := by
  refine List.map_congr_left fun slot hslot => ?_
  rw [codecRead_ok_iff.mpr ⟨h slot (List.mem_range.mp hslot), rfl⟩]
  rfl

/-- Every slot index fits its 48 bits (00_scope.md R7). -/
theorem slotCount_lt (s : State) : s.slotCount < 2 ^ 48 :=
  calc s.slotCount ≤ 65535 * 65535 * 65535 :=
        Nat.mul_le_mul (Nat.mul_le_mul (Nat.le_of_lt_succ s.sizeX.isLt)
          (Nat.le_of_lt_succ s.sizeY.isLt)) (Nat.le_of_lt_succ s.sizeZ.isLt)
    _ < 2 ^ 48 := by decide

theorem slot_ofNat_toNat {s : State} {slot : Nat} (h : slot < s.slotCount) :
    (BitVec.ofNat 48 slot).toNat = slot := by
  rw [BitVec.toNat_ofNat, Nat.mod_eq_of_lt (h.trans (slotCount_lt s))]

/-- The PACK of a slot below N calls for no fault: its value was read at the declared width. -/
theorem violationIn_packOf {s : State} {m : Memory} {slot : Nat}
    (hb : s.bits = 4#8 ∨ s.bits = 8#8 ∨ s.bits = 16#8) (h : slot < s.slotCount) :
    violationIn s (encode (packOf s.bits m slot)) = none := by
  have hfit := slotValue_lt m slot hb
  rw [violation_encode]
  simp only [packOf, checksOf, firstViolation_cons_eq_none, firstViolation_nil, and_true, bne_self_eq_false,
    true_and, State.slotOutOfRange, State.valueOutOfRange, slot_ofNat_toNat h,
    decide_eq_false_iff_not, not_le]
  exact ⟨h, hfit⟩

/-- The latest store into a slot below N, among the PACK commands of the first `n` slots, is its own. -/
theorem lastStored_packOf {s : State} (m : Memory) {n slot : Nat} (hn : n ≤ s.slotCount)
    (hslot : slot < n) :
    lastStored s.sizeX s.sizeZ slot
      ((List.range n).map fun k => encode (packOf s.bits m k)) =
        some (slotValue m s.bits slot).toNat := by
  induction n with
  | zero => omega
  | succ n ih =>
    have hlast : lastStored s.sizeX s.sizeZ slot [encode (packOf s.bits m n)] =
        if n = slot then some (slotValue m s.bits n).toNat else none := by
      rw [lastStored_singleton, storedBy_encode, packOf, storeOf, Option.map_some, Option.bind_some,
        slot_ofNat_toNat hn]
    rw [List.range_succ, List.map_append, List.map_singleton, lastStored_append, hlast]
    by_cases h : n = slot
    · rw [if_pos h, Option.some_or, h]
    · rw [if_neg h, Option.none_or, ih (by omega) (by omega)]

/-! ### A buffer is the values of its slots -/

/-- No bit at the length or above is set. -/
theorem Memory.bit_beyond {m : Memory} (hm : m.wf) {k : Nat} (h : 8 * m.len ≤ k) :
    m.bit k = false := by
  rw [Memory.bit, Memory.lookup_beyond hm (by omega), BitVec.getLsbD_zero]

/-- Two buffers in canonical form, of one length, with the same bits are equal. -/
theorem Memory.ext_of_bits {m₁ m₂ : Memory} (h₁ : m₁.wf) (h₂ : m₂.wf) (hlen : m₁.len = m₂.len)
    (h : ∀ k, k < 8 * m₁.len → m₁.bit k = m₂.bit k) : m₁ = m₂ := by
  refine Memory.ext_of_wf h₁ h₂ hlen fun a => BitVec.eq_of_getLsbD_eq fun i hi => ?_
  rw [← m₁.bit_eq hi rfl, ← m₂.bit_eq hi rfl]
  by_cases hk : 8 * a + i < 8 * m₁.len
  · exact h _ hk
  · rw [Memory.bit_beyond h₁ (by omega), Memory.bit_beyond h₂ (by omega)]

/-- A buffer bit belongs to a slot in range or, with an odd number of 4-bit slots, to the pad nibble. -/
theorem slot_of_bit {bits : BitVec 8} {n k : Nat} (hb : bits = 4#8 ∨ bits = 8#8 ∨ bits = 16#8)
    (hk : k < 8 * packedBytes n bits) :
    k / bits.toNat < n ∨ (bits = 4#8 ∧ n % 2 = 1 ∧ k / bits.toNat = n) := by
  rcases hb with rfl | rfl | rfl
  · replace hk : k < 8 * ((n * 4 + 7) / 8) := hk
    by_cases h : k / 4 < n
    · exact .inl h
    · have hpad : k / 4 = n := by omega
      exact .inr ⟨rfl, by omega, hpad⟩
  · replace hk : k < 8 * ((n * 8 + 7) / 8) := hk
    exact .inl (show k / 8 < n by omega)
  · replace hk : k < 8 * ((n * 16 + 7) / 8) := hk
    exact .inl (show k / 16 < n by omega)

/-- Two buffers in canonical form, of the length for `n` slots, are equal if the slots hold the same values and their
pad nibbles, where there is one, are zero. -/
theorem Memory.ext_of_slots {m₁ m₂ : Memory} {bits : BitVec 8} {n : Nat}
    (hb : bits = 4#8 ∨ bits = 8#8 ∨ bits = 16#8) (h₁ : m₁.wf) (h₂ : m₂.wf)
    (l₁ : m₁.len = packedBytes n bits) (l₂ : m₂.len = packedBytes n bits)
    (p₁ : bits = 4#8 → n % 2 = 1 →
      (lookupCell (packedBytes n bits - 1) m₁.cells).extractLsb' 4 4 = 0#4)
    (p₂ : bits = 4#8 → n % 2 = 1 →
      (lookupCell (packedBytes n bits - 1) m₂.cells).extractLsb' 4 4 = 0#4)
    (h : ∀ slot, slot < n → slotValue m₁ bits slot = slotValue m₂ bits slot) : m₁ = m₂ := by
  refine Memory.ext_of_bits h₁ h₂ (l₁.trans l₂.symm) fun k hk => ?_
  rw [m₁.bit_eq_slotValue k hb, m₂.bit_eq_slotValue k hb]
  rcases slot_of_bit hb (l₁ ▸ hk) with hslot | ⟨rfl, hodd, hslot⟩
  · rw [h _ hslot]
  · rw [hslot, slotValue_pad hodd (p₁ rfl hodd), slotValue_pad hodd (p₂ rfl hodd)]

/-- Settles O46: no PACK of the image calls for a fault, so they run to the end; then every slot holds its latest
store, the image's value, and the buffer is the image. -/
theorem loadingAByteImageReproducesIt : Obligations.LoadingAByteImageReproducesIt := by
  intro s image hs hwf hlen hpad hp
  have hb := bits_of_running hs
  rw [loadCommands_eq fun slot hslot => slotExists_of_lt hb hlen hslot] at hp
  obtain ⟨t, hrun, ht⟩ := run_words_answers_of_clear hs hp fun c hc => by
    obtain ⟨slot, hslot, rfl⟩ := List.mem_map.mp hc
    exact violationIn_packOf hb (List.mem_range.mp hslot)
  have hinv : Inv t := run_words_keep_inv hs.1 hp hrun
  obtain ⟨hx, hy, hz, hbits⟩ := run_words_keep_configuration hp hrun
  have hcount : t.slotCount = s.slotCount := by rw [State.slotCount, hx, hy, hz, State.slotCount]
  have hslots : ∀ slot, slot < s.slotCount →
      slotValue t.buf s.bits slot = slotValue image s.bits slot := fun slot hslot => by
    have h := slotValue_run_words hs.1 hp hrun ht slot
    rw [lastStored_packOf image le_rfl hslot, hbits] at h
    exact BitVec.eq_of_toNat_eq h
  rw [List.length_map, List.length_range] at hrun
  refine ⟨t, hrun, ht, ?_⟩
  have ⟨_, hwf', _⟩ := hinv
  obtain ⟨-, -, -, -, hlen', -, hpad'⟩ := constructed_of_running ⟨hinv, ht⟩
  rw [State.bufferLength, hbits, hcount] at hlen' hpad'
  exact Memory.ext_of_slots hb hwf' hwf hlen' hlen hpad' hpad hslots

end Sys2Proof.Machine
end

section
/-! The encoding (30_encoding.md R60 to R68): decode and encode are inverse, decoding is by the opcode alone, and a
written line is assembled to the number of its fields. -/

namespace Sys2Proof.Machine

open Sys2Proof.Safety

/-! ### Decode and encode (R60, R64) -/

/-- The decoder reads back every field that the encoder placed, the must-be-zero ones too. -/
theorem decode_encode (i : Instr) : decode (encode i) = .command i := by
  cases i with
  | pack | unpack => simp [decode, encode, formatSlot]
  | set | get | sizex | sizey | sizez => simp [decode, encode]

/-- A word decodes to a command exactly where it is that command's word. -/
theorem decode_eq_command_iff {c : CmdWord} {i : Instr} : decode c = .command i ↔ encode i = c :=
  ⟨encode_of_decode, fun h => h ▸ decode_encode i⟩

/-- Settles O1: the round trip from the command, and the one from the word. -/
theorem decodeAndEncodeAreInverse : Obligations.DecodeAndEncodeAreInverse :=
  ⟨decode_encode, fun _ _ => encode_of_decode⟩

/-! ### Decoding is by the opcode alone (R64, R65) -/

/-- The opcode of a word that decodes is its command's. -/
theorem opOf_of_decode_command {c : CmdWord} {i : Instr} (h : decode c = .command i) :
    opOf c = (opcode i).toNat := by
  rw [← encode_of_decode h, opOf_encode]

theorem opcode_range (i : Instr) : 1 ≤ (opcode i).toNat ∧ (opcode i).toNat ≤ 7 := by
  cases i <;> simp [opcode]

/-- The verdict illegal names the word's own opcode. -/
theorem error_of_decode_illegal {c : CmdWord} {e : DecodeError} (h : decode c = .illegal e) :
    e = .illegalOpcode (fieldOp c) := by
  unfold decode at h
  split at h <;> cases h
  rfl

theorem fieldOp_eq_ofNat (c : CmdWord) : fieldOp c = BitVec.ofNat 8 (opOf c) := by
  rw [← fieldOp_toNat, BitVec.ofNat_toNat, BitVec.setWidth_eq]

/-- Settles O2: a command's opcode is one of the seven, and the verdict illegal is for every other one. -/
theorem wordDecodesByOpcodeAlone : Obligations.WordDecodesByOpcodeAlone := by
  intro c
  refine ⟨⟨?_, ?_⟩, ?_, ?_⟩
  · rintro ⟨i, hd⟩
    rw [opOf_of_decode_command hd]
    exact opcode_range i
  · intro hop
    cases hd : decode c with
    | command i => exact ⟨i, rfl⟩
    | illegal e =>
      have := opOf_of_decode_illegal hd
      omega
  · intro e hd
    rw [error_of_decode_illegal hd, fieldOp_eq_ofNat]
  · intro i hd
    rw [opOf_of_decode_command hd]
    cases i <;> rfl

/-- Settles O3, by evaluating the decoder on each of the eight words. -/
theorem writtenOutWordsDecode : Obligations.WrittenOutWordsDecode := by
  unfold Obligations.WrittenOutWordsDecode
  decide

/-! ### The assembler (R67, R68) -/

/-- The assembler's test of a line is that its operands fit. -/
theorem fits_iff_operandsFit (line : Written) : line.fits = true ↔ operandsFit line := by
  cases line <;> simp [Written.fits, operandsFit, and_assoc, Nat.lt_succ_iff]

/-- The number of a word with a slot index in it (R68). -/
theorem formatSlot_toNat (op w : BitVec 8) (slot : SlotIndex) (v : BitVec 16) :
    (formatSlot op w slot v).toNat =
      op.toNat * 2 ^ 72 + w.toNat * 2 ^ 64 + slot.toNat * 2 ^ 16 + v.toNat := by
  have hslot := slotIndex_toNat (slot.extractLsb' 32 16) (slot.extractLsb' 16 16) (slot.extractLsb' 0 16)
  rw [slotIndex_fields] at hslot
  rw [formatSlot, formatC_toNat, hslot]
  ring

/-- A line whose operands fit is encoded to the sum of its fields at their places. -/
theorem encode_toInstr_toNat {line : Written} (h : operandsFit line) :
    (encode line.toInstr).toNat = assembledNumber line := by
  cases line with
  | pack w slot value =>
    obtain ⟨hw, hslot, hvalue⟩ := h
    simp only [Written.toInstr, encode, formatSlot_toNat, assembledNumber, BitVec.toNat_ofNat]
    omega
  | unpack w slot =>
    obtain ⟨hw, hslot⟩ := h
    simp only [Written.toInstr, encode, formatSlot_toNat, assembledNumber, BitVec.toNat_ofNat]
    omega
  | set x y z value =>
    obtain ⟨hx, hy, hz, hvalue⟩ := h
    simp only [Written.toInstr, encode, formatC_toNat, assembledNumber, BitVec.toNat_ofNat]
    omega
  | get x y z =>
    obtain ⟨hx, hy, hz⟩ := h
    simp only [Written.toInstr, encode, formatC_toNat, assembledNumber, BitVec.toNat_ofNat]
    omega
  | sizex | sizey | sizez => decide

/-- Settles O4: the assembler's test decides between the word of the rule and the rejection. -/
theorem assembledWordIsTheWrittenCommand : Obligations.AssembledWordIsTheWrittenCommand := by
  intro line
  refine ⟨fun hfit => ⟨encode line.toInstr, ?_, encode_toInstr_toNat hfit⟩, fun hfit => ?_⟩
  · rw [assemble, if_pos ((fits_iff_operandsFit line).mpr hfit)]
  · rw [assemble, if_neg fun h => hfit ((fits_iff_operandsFit line).mp h)]

end Sys2Proof.Machine
end

section
/-! SUPPORT. The answer of a command that executes (30_encoding.md R63): its DATA read from the bits of its word, and
that every word is answered. -/

namespace Sys2Proof.Machine

open Sys2Proof.Safety

/-- The DATA of an OK response, by the opcode of the word (R63): what was read, the register, or zero. -/
def OkData (s : State) (c : CmdWord) (data : Value) : Prop :=
  (opOf c = 2 → codecRead s.buf s.bits (slotNumber c) = .ok data) ∧
  (opOf c = 4 → codecRead s.buf s.bits
    (slotOf s.sizeX.toNat s.sizeZ.toNat (aOf c) (bOf c) (cOf c)) = .ok data) ∧
  (opOf c = 5 → data = s.sizeX) ∧
  (opOf c = 6 → data = s.sizeY) ∧
  (opOf c = 7 → data = s.sizeZ) ∧
  (opOf c = 1 ∨ opOf c = 3 → data = 0x0000#16)

/-- A command that executes sends one OK response with the DATA that its word asks for, and latches nothing. -/
theorem effectOf_response {i : Instr} {s t : State} (h : effectOf s i = .next t) :
    ∃ data, t.responses = s.responses ++ [responseWord statusOk data] ∧
      t.faultCause = s.faultCause ∧ OkData s (encode i) data := by
  have hop := opOf_encode i
  unfold OkData
  cases i with
  | pack | set =>
    obtain ⟨buf, -, rfl⟩ := storeSlot_cases h
    exact ⟨0x0000#16, rfl, rfl, by simp [hop, opcode]⟩
  | unpack w slot v =>
    have hslot : slotNumber (encode (.unpack w slot v)) = slot.toNat := slotNumber_formatSlot ..
    obtain ⟨data, hread, rfl⟩ := answerSlot_cases h
    exact ⟨data, rfl, rfl, by simp [hop, opcode, hslot, hread]⟩
  | get w x y z v =>
    have hx : aOf (encode (.get w x y z v)) = x.toNat := aOf_formatC ..
    have hy : bOf (encode (.get w x y z v)) = y.toNat := bOf_formatC ..
    have hz : cOf (encode (.get w x y z v)) = z.toNat := cOf_formatC ..
    obtain ⟨data, hread, rfl⟩ := answerSlot_cases h
    rw [State.voxelSlot] at hread
    exact ⟨data, rfl, rfl, by simp [hop, opcode, hx, hy, hz, hread]⟩
  | sizex | sizey | sizez =>
    cases h
    exact ⟨_, rfl, rfl, by simp [hop, opcode]⟩

/-- From every state of the invariant a word is answered (70_reset_and_hazards.md R181). -/
theorem runWord_answers {s : State} (hs : Inv s) (c : CmdWord) : ∃ t, runWord c s = .next t := by
  cases hh : s.halted with
  | true => exact ⟨_, runWord_halted hh c⟩
  | false =>
    cases hv : violationIn s c with
    | some cause => exact ⟨_, runWord_violation hh hv⟩
    | none =>
      obtain ⟨t, h, -⟩ := runWord_answers_of_clear ⟨hs, s.halted_eq_false_iff.mp hh⟩ hv
      exact ⟨t, h⟩

end Sys2Proof.Machine
end

section
/-! The order of checks (30_encoding.md R62, R66, 60_exceptions.md R145) over the step: a reserved opcode, a stray
field, and the first check that applies to any word. -/

namespace Sys2Proof.Machine

open Sys2Proof.Safety

/-! ### Reserved opcodes (R64, R65) -/

theorem violationIn_of_reserved_opcode {c : CmdWord} (h : opOf c = 0 ∨ 8 ≤ opOf c) (s : State) :
    violationIn s c = some .illegalOpcode :=
  if_pos (by omega)

/-- Settles O6: the first check is the one on the opcode. -/
theorem reservedOpcodeRaisesIllegalOpcode : Obligations.ReservedOpcodeRaisesIllegalOpcode := by
  intro s c rest hrun hp hop
  have hv := violationIn_of_reserved_opcode hop { s with pending := rest }
  exact (step_of_pending_command hp).trans (runWord_violation (s.halted_eq_false_iff.mpr hrun) hv)

/-! ### Stray fields (R62) -/

/-- A word calls for RESERVED_FIELD exactly where it has a command's opcode and a must-be-zero bit set. -/
theorem violationIn_eq_reservedField_iff {s : State} {c : CmdWord} :
    violationIn s c = some .reservedField ↔
      (1 ≤ opOf c ∧ opOf c ≤ 7) ∧ c &&& mustBeZeroMask (opOf c) ≠ 0#80 := by
  unfold violationIn violation
  by_cases hop : opOf c < 1 ∨ 7 < opOf c
  · rw [if_pos hop]
    exact ⟨nofun, fun ⟨_, _⟩ => by omega⟩
  rw [if_neg hop]
  by_cases hz : c &&& mustBeZeroMask (opOf c) ≠ 0#80
  · rw [if_pos hz]
    exact ⟨fun _ => ⟨by omega, hz⟩, fun _ => rfl⟩
  · rw [if_neg hz]
    refine ⟨fun h => ?_, fun h => absurd h.2 hz⟩
    split_ifs at h <;> cases h

/-- A command runs as its word does. -/
theorem exec_eq_runWord_encode (i : Instr) (s : State) : exec i s = runWord (encode i) s :=
  (runWord_of_decode_command (decode_encode i) s).symm

/-- Settles O22: a command's word calls for RESERVED_FIELD exactly where a must-be-zero bit is set, and a running
engine raises what the word calls for and nothing else. -/
theorem strayFieldRaisesReservedField : Obligations.StrayFieldRaisesReservedField := by
  intro s i
  have hop : 1 ≤ opOf (encode i) ∧ opOf (encode i) ≤ 7 := by
    rw [opOf_encode]
    exact opcode_range i
  rw [exec_eq_runWord_encode]
  refine ⟨fun hrun hstray => ?_, fun hs hclear => ?_⟩
  · exact runWord_violation (s.halted_eq_false_iff.mpr hrun)
      (violationIn_eq_reservedField_iff.mpr ⟨hop, hstray⟩)
  · obtain ⟨t, h⟩ := runWord_answers hs.1 (encode i)
    refine ⟨t, h, fun hcause => ?_⟩
    rcases runWord_cases h with ⟨hh, -⟩ | ⟨cause, -, hv, rfl⟩ | ⟨j, -, -, -, he⟩
    · exact s.halted_iff.mp hh hs.2
    · rw [State.raiseFault_faultCause] at hcause
      rw [hcause] at hv
      obtain ⟨-, hstray⟩ := violationIn_eq_reservedField_iff.mp hv
      exact hstray hclear
    · obtain ⟨-, -, hkeep, -⟩ := effectOf_response he
      cases hcause.symm.trans (hkeep.trans hs.2)

/-! ### The order of checks (R66) -/

/-- Settles O8: a halted engine answers FF0000, a fault that the word calls for is raised, and a word that calls for
none is a command whose effect is answered OK. -/
theorem stepFollowsTheOrderOfChecks : Obligations.StepFollowsTheOrderOfChecks := by
  intro s c rest hs hp
  have hstep := step_of_pending_command hp
  refine ⟨fun hfault => ?_, fun hrun => ⟨fun cause hv => ?_, fun hv => ?_⟩⟩
  · exact hstep.trans (runWord_halted (s := { s with pending := rest }) (s.halted_iff.mpr hfault) c)
  · exact hstep.trans (runWord_violation (s.halted_eq_false_iff.mpr hrun) hv)
  · obtain ⟨i, hd⟩ := exists_decode_of_clear hv
    obtain ⟨t, h⟩ := runWord_answers (s := { s with pending := rest }) hs c
    have he : effectOf { s with pending := rest } i = .next t :=
      (runWord_clear (s := { s with pending := rest }) (s.halted_eq_false_iff.mpr hrun) hv hd).symm.trans h
    obtain ⟨data, hresp, hkeep, -⟩ := effectOf_response he
    exact ⟨i, t, responseWord statusOk data, hd, hstep.trans h, hkeep.trans hrun, hresp,
      responseWord_status statusOk data⟩

end Sys2Proof.Machine
end

section
/-! Responses (30_encoding.md R63): one for every command and none for anything else. -/

namespace Sys2Proof.Machine

open Sys2Proof.Safety

/-- The code of a cause is 0x00 or one that commands raise, unless reset latched it (60_exceptions.md R141). -/
theorem Cause.code_mem {cause : Cause} (hinvalid : cause ≠ .cfgInvalid)
    (hcapacity : cause ≠ .cfgCapacity) :
    cause.code ∈ [0x00#8, 0x01#8, 0x02#8, 0x03#8, 0x05#8, 0x06#8, 0x07#8] := by
  cases cause with
  | cfgInvalid => exact absurd rfl hinvalid
  | cfgCapacity => exact absurd rfl hcapacity
  | noFault | illegalOpcode | reservedField | widthMismatch | slotRange | coordRange | valueRange =>
    decide

theorem Cause.code_eq_zero_iff {cause : Cause} : cause.code = 0x00#8 ↔ cause = .noFault := by
  cases cause <;> decide

/-- Every word that is answered gets one response: HALTED, the cause it raised with no data, or OK with its data. -/
theorem runWord_response {s t : State} {c : CmdWord} (h : runWord c s = .next t) :
    ∃ status data, t.responses = s.responses ++ [responseWord status data] ∧
      (s.faultCause ≠ .noFault → status = statusHalted ∧ data = 0x0000#16) ∧
      (s.faultCause = .noFault → status = t.causeCode ∧
        t.faultCause ≠ .cfgInvalid ∧ t.faultCause ≠ .cfgCapacity ∧
        (t.faultCause ≠ .noFault → data = 0x0000#16) ∧
        (t.faultCause = .noFault → OkData s c data)) := by
  rcases runWord_cases h with ⟨hh, rfl⟩ | ⟨cause, hh, hv, rfl⟩ | ⟨i, hh, -, hd, he⟩
  · exact ⟨statusHalted, 0x0000#16, rfl, fun _ => ⟨rfl, rfl⟩,
      fun hrun => absurd hrun (s.halted_iff.mp hh)⟩
  · obtain ⟨hcause, hinvalid, hcapacity⟩ := violationIn_is_command_cause hv
    exact ⟨cause.code, 0x0000#16, rfl, fun hfault => absurd (s.halted_eq_false_iff.mp hh) hfault,
      fun _ => ⟨rfl, hinvalid, hcapacity, fun _ => rfl, fun hno => absurd hno hcause⟩⟩
  · obtain ⟨data, hresp, hkeep, hdata⟩ := effectOf_response he
    have ht : t.faultCause = .noFault := hkeep.trans (s.halted_eq_false_iff.mp hh)
    rw [encode_of_decode hd] at hdata
    refine ⟨statusOk, data, hresp, fun hfault => absurd (s.halted_eq_false_iff.mp hh) hfault,
      fun _ => ⟨?_, ?_, ?_, fun hfault => absurd ht hfault, fun _ => hdata⟩⟩
    · rw [State.causeCode, ht]; rfl
    · rw [ht]; decide
    · rw [ht]; decide

/-- From every state of the invariant the step answers (70_reset_and_hazards.md R181). -/
theorem step_answers {s : State} (hs : Inv s) : ∃ t, step s = .next t := by
  rcases step_cases s with ⟨-, e⟩ | ⟨c, rest, -, e⟩ | ⟨st, rest, -, e⟩
  · exact ⟨_, e⟩
  · rw [e]
    exact runWord_answers (s := { s with pending := rest }) hs c
  · exact ⟨_, e⟩

/-- A step that takes no command sends nothing (R63). -/
theorem step_silent {s t : State} (hnone : ∀ c rest, s.pending ≠ .command c :: rest)
    (h : step s = .next t) : t.responses = s.responses := by
  rcases step_cases s with ⟨-, e⟩ | ⟨c, rest, hp, -⟩ | ⟨st, rest, -, e⟩
  · rw [e] at h
    cases h
    rfl
  · exact absurd hp (hnone c rest)
  · rw [e] at h
    cases h
    rfl

/-- Settles O9: the response of the word, its two fields read back from the response word. -/
theorem everyCommandGetsOneResponse : Obligations.EveryCommandGetsOneResponse := by
  refine fun s => ⟨step_answers, fun t h => ⟨fun c rest hp => ?_, fun hnone => step_silent hnone h⟩⟩
  rw [step_of_pending_command hp] at h
  obtain ⟨status, data, hresp, hhalted, hanswer⟩ := runWord_response h
  refine ⟨responseWord status data, hresp, ?_⟩
  rw [responseWord_status, responseWord_data]
  refine ⟨hhalted, fun hrun => ?_⟩
  obtain ⟨rfl, hinvalid, hcapacity, hfault, hok⟩ := hanswer hrun
  exact ⟨rfl, Cause.code_mem hinvalid hcapacity,
    fun hne => hfault fun ht => hne (Cause.code_eq_zero_iff.mpr ht),
    fun hz => hok (Cause.code_eq_zero_iff.mp hz)⟩

end Sys2Proof.Machine
end

section
/-! SUPPORT. What a command answers: a halted engine, a fault of its checks, and a command whose checks are clear,
which stores into its slot or answers it. The statements of the single commands are these, read at their checks. -/

namespace Sys2Proof.Machine

open Sys2Proof.Safety

/-! ### The three ways of a command (30_encoding.md R66) -/

/-- A halted engine answers every command FF0000 and changes nothing (60_exceptions.md R148). -/
theorem exec_halted {s : State} (h : s.faultCause ≠ .noFault) (i : Instr) :
    exec i s = .next (answering s 0xFF0000#24) :=
  (exec_eq_guarded i s).trans (guarded_halted (s.halted_iff.mpr h))

/-- A running engine raises the first check that holds and records the command's word (R147). -/
theorem exec_violation {s : State} {i : Instr} {cause : Cause} (h : s.faultCause = .noFault)
    (hv : firstViolation (checksOf s i) = some cause) :
    exec i s = .next (faulting s i cause (responseWord cause.code 0x0000#16)) :=
  (exec_eq_guarded i s).trans (guarded_violation (s.halted_eq_false_iff.mpr h) hv)

/-- A running engine gives a command whose checks are clear its effect. -/
theorem exec_clear {s : State} {i : Instr} (h : s.faultCause = .noFault)
    (hv : firstViolation (checksOf s i) = none) : exec i s = effectOf s i :=
  (exec_eq_guarded i s).trans (guarded_clear (s.halted_eq_false_iff.mpr h) hv)

/-! ### When no range check holds -/

section checks
variable (s : State)

theorem slotOutOfRange_eq_false_iff (slot : SlotIndex) : s.slotOutOfRange slot = false ↔
    slot.toNat < s.sizeX.toNat * s.sizeY.toNat * s.sizeZ.toNat := by
  rw [← Bool.not_eq_true, slotOutOfRange_iff, not_le]

theorem valueOutOfRange_eq_false_iff (v : Value) : s.valueOutOfRange v = false ↔
    v.toNat < 2 ^ s.bits.toNat := by
  rw [← Bool.not_eq_true, valueOutOfRange_iff, not_le]

theorem coordOutOfRange_eq_false_iff (x y z : Dim) : s.coordOutOfRange x y z = false ↔
    x.toNat < s.sizeX.toNat ∧ y.toNat < s.sizeY.toNat ∧ z.toNat < s.sizeZ.toNat := by
  rw [← Bool.not_eq_true, coordOutOfRange_iff, not_or, not_or, not_le, not_le, not_le]

end checks

/-! ### When the checks of a command are clear -/

section clear
variable {s : State} {slot : SlotIndex} {x y z : Dim} {v : Value}

/-- PACK at the declared width, of a slot below N and a value that fits (R81). -/
theorem checks_pack_clear
    (hslot : slot.toNat < s.slotCount) (hv : v.toNat < 2 ^ s.bits.toNat) :
    firstViolation (checksOf s (.pack s.bits slot v)) = none := by
  simp [checksOf, (slotOutOfRange_eq_false_iff s slot).mpr hslot,
    (valueOutOfRange_eq_false_iff s v).mpr hv]

/-- UNPACK at the declared width, of a slot below N (R83). -/
theorem checks_unpack_clear (hslot : slot.toNat < s.slotCount) :
    firstViolation (checksOf s (.unpack s.bits slot 0#16)) = none := by
  simp [checksOf, (slotOutOfRange_eq_false_iff s slot).mpr hslot]

/-- SET of a coordinate in range and a value that fits (R91). -/
theorem checks_set_clear (hcoord : s.coordOutOfRange x y z = false)
    (hv : v.toNat < 2 ^ s.bits.toNat) : firstViolation (checksOf s (.set 0#8 x y z v)) = none := by
  simp [checksOf, hcoord, (valueOutOfRange_eq_false_iff s v).mpr hv]

/-- GET of a coordinate in range (R93). -/
theorem checks_get_clear (hcoord : s.coordOutOfRange x y z = false) :
    firstViolation (checksOf s (.get 0#8 x y z 0#16)) = none := by
  simp [checksOf, hcoord]

end clear

/-! ### Commands that store and commands that answer a slot -/

/-- A command with clear checks that stores into a slot below N writes the slot and answers OK with no data. -/
theorem exec_stores {s : State} {i : Instr} {slot : Nat} {v : Value} (hs : Running s)
    (hclear : firstViolation (checksOf s i) = none) (hstore : storeOf s i = some (slot, v))
    (hslot : slot < s.slotCount) :
    ∃ m', codecWrite s.buf s.bits slot v = .ok m' ∧
      exec i s = .next (answering { s with buf := m' } 0x000000#24) := by
  obtain ⟨m', hw, he⟩ :=
    storeSlot_eq_next v (constructed_slotExists (constructed_of_running hs) hslot)
  exact ⟨m', hw, (exec_clear hs.2 hclear).trans ((effectOf_of_storeOf hstore).trans he)⟩

/-- A command with clear checks that answers a slot below N answers OK with the slot's value. -/
theorem exec_answers_slot {s : State} {i : Instr} {slot : Nat} (hs : Running s)
    (hclear : firstViolation (checksOf s i) = none) (heffect : effectOf s i = answerSlot slot s)
    (hslot : slot < s.slotCount) :
    exec i s = .next (answering s ((slotValue s.buf s.bits slot).setWidth 24)) := by
  rw [exec_clear hs.2 hclear, heffect,
    answerSlot_eq_next (constructed_slotExists (constructed_of_running hs) hslot),
    State.respond, responseWord_ok]
  rfl

/-- UNPACK of a slot below N answers the slot's value (R83). -/
theorem exec_unpack_running {s : State} {slot : SlotIndex} (hs : Running s)
    (hslot : slot.toNat < s.slotCount) : exec (.unpack s.bits slot 0#16) s =
      .next (answering s ((slotValue s.buf s.bits slot.toNat).setWidth 24)) :=
  exec_answers_slot hs (checks_unpack_clear hslot) rfl hslot

/-- GET of a coordinate in range answers the value of its slot (R93). -/
theorem exec_get_running {s : State} {x y z : Dim} (hs : Running s)
    (hcoord : s.coordOutOfRange x y z = false) : exec (.get 0#8 x y z 0#16) s =
      .next (answering s ((slotValue s.buf s.bits (s.voxelSlot x y z)).setWidth 24)) :=
  exec_answers_slot hs (checks_get_clear hcoord) rfl (voxelSlot_lt hcoord)

/-- The state after a store of a value that fits is running. -/
theorem running_stored {s : State} {m' : Memory} {slot : Nat} {v : Value} (hs : Running s)
    (hslot : slot < s.slotCount) (hv : v.toNat < 2 ^ s.bits.toNat)
    (hw : codecWrite s.buf s.bits slot v = .ok m') (r : RespWord) :
    Running (answering { s with buf := m' } r) := by
  have hinv : Inv { s with buf := m' } := inv_codecWrite hs.1 hslot hv hw
  exact ⟨hinv, hs.2⟩

end Sys2Proof.Machine
end

section
/-! PACK and UNPACK (40_codec_commands.md): each follows its rule (R81, R83), PACK guarantees what R82 derives, and
the slot form of a command agrees with its coordinate form (R84). -/

namespace Sys2Proof.Machine

open Sys2Proof.Safety

/-- Settles O17: the checks of PACK in the order of R81, and the store where they are clear. -/
theorem packFollowsItsRule : Obligations.PackFollowsItsRule := by
  intro s w slot v
  refine ⟨fun hs hw hslot hv => ?completes, fun hrun hw => exec_violation hrun ?width,
    fun hrun hw hslot => exec_violation hrun ?slot,
    fun hrun hw hslot hv => exec_violation hrun ?value, fun hfault => exec_halted hfault _⟩
  case completes =>
    subst hw
    have ⟨⟨_, hwf, _⟩, _⟩ := hs
    obtain ⟨m', hwrite, hexec⟩ := exec_stores hs (checks_pack_clear hslot hv) rfl hslot
    exact ⟨m', hexec, slotStored_of_codecWrite hwf hv hwrite⟩
  case width => simp [checksOf, hw]
  case slot => simp [checksOf, hw, (slotOutOfRange_iff s slot).mpr hslot]
  case value =>
    simp [checksOf, hw, (slotOutOfRange_eq_false_iff s slot).mpr hslot,
      (valueOutOfRange_iff s v).mpr hv]

/-- Settles O18: the checks of UNPACK in the order of R83, and the slot's value where they are clear. -/
theorem unpackFollowsItsRule : Obligations.UnpackFollowsItsRule := by
  intro s w slot f
  refine ⟨fun hs hf hw hslot => ?completes, fun hrun hf => exec_violation hrun ?field,
    fun hrun hf hw => exec_violation hrun ?width,
    fun hrun hf hw hslot => exec_violation hrun ?slot, fun hfault => exec_halted hfault _⟩
  case completes =>
    subst hf hw
    exact ⟨_, exec_unpack_running hs hslot,
      slotHolds_slotValue (constructed_slotExists (constructed_of_running hs) hslot)⟩
  case field => simp [checksOf, hf]
  case width => simp [checksOf, hf, hw]
  case slot => simp [checksOf, hf, hw, (slotOutOfRange_iff s slot).mpr hslot]

/-- Settles O25: both forms pass their checks, and both have the effect at the coordinate's slot. -/
theorem slotAndCoordinateFormsAgree : Obligations.SlotAndCoordinateFormsAgree := by
  intro s x y z v hs hx hy hz
  have hcoord := (coordOutOfRange_eq_false_iff s x y z).mpr ⟨hx, hy, hz⟩
  have hslot : (BitVec.ofNat 48 (s.voxelSlot x y z)).toNat = s.voxelSlot x y z :=
    slot_ofNat_toNat (voxelSlot_lt hcoord)
  have hlt : (BitVec.ofNat 48 (s.voxelSlot x y z)).toNat < s.slotCount :=
    hslot.trans_lt (voxelSlot_lt hcoord)
  refine ⟨fun hv => ?store, ?answer⟩
  case store =>
    calc exec (.pack s.bits (BitVec.ofNat 48 (s.voxelSlot x y z)) v) s
        = storeSlot (BitVec.ofNat 48 (s.voxelSlot x y z)).toNat v s :=
          exec_clear hs.2 (checks_pack_clear hlt hv)
      _ = storeSlot (s.voxelSlot x y z) v s := by rw [hslot]
      _ = exec (.set 0#8 x y z v) s := (exec_clear hs.2 (checks_set_clear hcoord hv)).symm
  case answer =>
    calc exec (.unpack s.bits (BitVec.ofNat 48 (s.voxelSlot x y z)) 0#16) s
        = answerSlot (BitVec.ofNat 48 (s.voxelSlot x y z)).toNat s :=
          exec_clear hs.2 (checks_unpack_clear hlt)
      _ = answerSlot (s.voxelSlot x y z) s := by rw [hslot]
      _ = exec (.get 0#8 x y z 0#16) s := (exec_clear hs.2 (checks_get_clear hcoord)).symm

/-- Settles O27: the state after the PACK is running, its slot holds the value and every other slot what it held. -/
theorem packThenUnpackAnswersTheValue : Obligations.PackThenUnpackAnswersTheValue := by
  intro s slot v hs hslot hv
  have ⟨⟨_, hwf, _⟩, _⟩ := hs
  obtain ⟨m', hwrite, hexec⟩ := exec_stores hs (checks_pack_clear hslot hv) rfl hslot
  have ht := running_stored hs hslot hv hwrite 0x000000#24
  have hsame : slotValue m' s.bits slot.toNat = v := slotValue_codecWrite_same hwf hv hwrite
  refine ⟨_, hexec, ?same, fun other hlt hne => ?other, fun x y z hx hy hz hvoxel => ?get, rfl⟩
  case same => exact hsame ▸ exec_unpack_running ht hslot
  case other =>
    have hkeep : slotValue m' s.bits other.toNat = slotValue s.buf s.bits other.toNat :=
      slotValue_codecWrite_other hwf hv hwrite (BitVec.toNat_ne.mp hne)
    exact ⟨_, exec_unpack_running hs hlt, hkeep ▸ exec_unpack_running ht hlt⟩
  case get =>
    have hcoord := (coordOutOfRange_eq_false_iff s x y z).mpr ⟨hx, hy, hz⟩
    have hget : slotValue m' s.bits (s.voxelSlot x y z) = v := by rw [← hsame, ← hvoxel]; rfl
    exact hget ▸ exec_get_running ht hcoord

end Sys2Proof.Machine
end

section
/-! SET and GET (41_dense_commands.md): each follows its rule (R91, R93), a SET guarantees what R92 derives, and the
slots rise in the scan order of R94. -/

namespace Sys2Proof.Machine

open Sys2Proof.Safety

/-! ### Scan order (R94) -/

/-- The larger leading part wins, whatever the last parts are. -/
theorem mul_add_lt_of_lt {base q q' r : Nat} (r' : Nat) (hr : r < base) (h : q < q') :
    q * base + r < q' * base + r' :=
  calc q * base + r < q * base + base := Nat.add_lt_add_left hr _
    _ = (q + 1) * base := (Nat.succ_mul q base).symm
    _ ≤ q' * base := Nat.mul_le_mul_right base h
    _ ≤ q' * base + r' := Nat.le_add_right _ _

/-- Numbers with a last part below the base are ordered by the leading part first. -/
theorem mul_add_lt_mul_add_iff {base q q' r r' : Nat} (hr : r < base) (hr' : r' < base) :
    q * base + r < q' * base + r' ↔ q < q' ∨ (q = q' ∧ r < r') := by
  rcases Nat.lt_trichotomy q q' with h | rfl | h
  · exact iff_of_true (mul_add_lt_of_lt r' hr h) (.inl h)
  · simp
  · exact iff_of_false (mul_add_lt_of_lt r hr' h).asymm (by omega)

/-- Such a number determines its two parts. -/
theorem mul_add_inj_iff {base q q' r r' : Nat} (hr : r < base) (hr' : r' < base) :
    q * base + r = q' * base + r' ↔ q = q' ∧ r = r' := by
  rcases Nat.lt_trichotomy q q' with h | rfl | h
  · exact iff_of_false (mul_add_lt_of_lt r' hr h).ne (by omega)
  · simp
  · exact iff_of_false (mul_add_lt_of_lt r hr' h).ne' (by omega)

/-- Settles O16: a slot is a number in base SIZEX whose leading part is a number in base SIZEZ, with the parts y, z
and x. -/
theorem scanOrderIsSlotOrder : Obligations.ScanOrderIsSlotOrder := by
  intro sizeX sizeZ x y z x' y' z' hx hz hx' hz'
  rw [slotOf, slotOf, mul_add_lt_mul_add_iff hx hx', mul_add_lt_mul_add_iff hz hz',
    mul_add_inj_iff hz hz', or_assoc, and_assoc, and_or_left]

/-! ### SET and GET, each by its rule (R91, R93) -/

/-- SET of a coordinate in range and a value that fits writes the coordinate's slot and answers OK with no data. -/
theorem exec_set_running {s : State} {x y z : Dim} {v : Value} (hs : Running s)
    (hcoord : s.coordOutOfRange x y z = false) (hv : v.toNat < 2 ^ s.bits.toNat) :
    ∃ m', codecWrite s.buf s.bits (s.voxelSlot x y z) v = .ok m' ∧
      exec (.set 0#8 x y z v) s = .next (answering { s with buf := m' } 0x000000#24) :=
  exec_stores hs (checks_set_clear hcoord hv) rfl (voxelSlot_lt hcoord)

/-- Settles O19: the checks of SET in the order of R91, and the store where they are clear. -/
theorem setFollowsItsRule : Obligations.SetFollowsItsRule := by
  intro s w x y z v
  refine ⟨fun hs hw hx hy hz hv => ?completes, fun hrun hw => exec_violation hrun ?field,
    fun hrun hw hout => exec_violation hrun ?coord,
    fun hrun hw hx hy hz hv => exec_violation hrun ?value, fun hfault => exec_halted hfault _⟩
  case completes =>
    subst hw
    have ⟨⟨_, hwf, _⟩, _⟩ := hs
    obtain ⟨m', hwrite, hexec⟩ :=
      exec_set_running hs ((coordOutOfRange_eq_false_iff s x y z).mpr ⟨hx, hy, hz⟩) hv
    exact ⟨m', hexec, slotStored_of_codecWrite hwf hv hwrite⟩
  case field => simp [checksOf, hw]
  case coord => simp [checksOf, hw, (coordOutOfRange_iff s x y z).mpr hout]
  case value =>
    simp [checksOf, hw, (coordOutOfRange_eq_false_iff s x y z).mpr ⟨hx, hy, hz⟩,
      (valueOutOfRange_iff s v).mpr hv]

/-- Settles O20: the checks of GET in the order of R93, and the voxel's value where they are clear. -/
theorem getFollowsItsRule : Obligations.GetFollowsItsRule := by
  intro s w x y z f
  refine ⟨fun hs hw hf hx hy hz => ?completes, fun hrun hstray => exec_violation hrun ?field,
    fun hrun hw hf hout => exec_violation hrun ?coord, fun hfault => exec_halted hfault _⟩
  case completes =>
    subst hw hf
    have hcoord := (coordOutOfRange_eq_false_iff s x y z).mpr ⟨hx, hy, hz⟩
    exact ⟨_, exec_get_running hs hcoord, slotHolds_slotValue
      (constructed_slotExists (constructed_of_running hs) (voxelSlot_lt hcoord))⟩
  case field => simp [checksOf, hstray]
  case coord => simp [checksOf, hw, hf, (coordOutOfRange_iff s x y z).mpr hout]

/-! ### What SET guarantees afterwards (R92) -/

/-- Coordinates in range that name one slot are one coordinate (20_memory.md R44). -/
theorem eq_of_voxelSlot_eq {s : State} {x y z x' y' z' : Dim}
    (h : s.coordOutOfRange x y z = false) (h' : s.coordOutOfRange x' y' z' = false)
    (heq : s.voxelSlot x' y' z' = s.voxelSlot x y z) : (x', y', z') = (x, y, z) := by
  obtain ⟨hx, -, hz⟩ := (coordOutOfRange_eq_false_iff s x y z).mp h
  obtain ⟨hx', -, hz'⟩ := (coordOutOfRange_eq_false_iff s x' y' z').mp h'
  have hcoord := congrArg (coordOf s.sizeX.toNat s.sizeZ.toNat) heq
  rw [State.voxelSlot, State.voxelSlot, coordOf_slotOf hx hz, coordOf_slotOf hx' hz'] at hcoord
  simpa [BitVec.toNat_inj] using hcoord

/-- Settles O26: the state after the SET is running, the coordinate's slot holds the value, and every other coordinate
names another slot, which holds what it held. -/
theorem setThenGetAnswersTheValue : Obligations.SetThenGetAnswersTheValue := by
  intro s x y z v hs hx hy hz hv
  have ⟨⟨_, hwf, _⟩, _⟩ := hs
  have hcoord := (coordOutOfRange_eq_false_iff s x y z).mpr ⟨hx, hy, hz⟩
  obtain ⟨m', hwrite, hexec⟩ := exec_set_running hs hcoord hv
  have ht := running_stored hs (voxelSlot_lt hcoord) hv hwrite 0x000000#24
  refine ⟨_, hexec, ?same, fun x' y' z' hx' hy' hz' hne => ?other⟩
  case same =>
    have hsame : slotValue m' s.bits (s.voxelSlot x y z) = v := slotValue_codecWrite_same hwf hv hwrite
    exact hsame ▸ exec_get_running ht hcoord
  case other =>
    have hcoord' := (coordOutOfRange_eq_false_iff s x' y' z').mpr ⟨hx', hy', hz'⟩
    have hkeep : slotValue m' s.bits (s.voxelSlot x' y' z') =
        slotValue s.buf s.bits (s.voxelSlot x' y' z') :=
      slotValue_codecWrite_other hwf hv hwrite fun heq => hne (eq_of_voxelSlot_eq hcoord hcoord' heq)
    exact ⟨_, exec_get_running hs hcoord', hkeep ▸ exec_get_running ht hcoord'⟩

end Sys2Proof.Machine
end

section
/-! SIZEX, SIZEY and SIZEZ (42_accessor_commands.md): one check, that every field but `OP` is zero, and an effect that
only answers the register. The rule is proved once for such a command, and each accessor is one. -/

namespace Sys2Proof.Machine

open Sys2Proof.Safety

/-- The one check of an accessor is clear exactly where W, A, B, C and V are all zero (30_encoding.md R62). -/
theorem strayField_eq_false_iff (w : BitVec 8) (a b c : BitVec 16) (f : Value) :
    (w != 0#8 || a != 0#16 || b != 0#16 || c != 0#16 || f != 0#16) = false ↔
      w = 0#8 ∧ a = 0#16 ∧ b = 0#16 ∧ c = 0#16 ∧ f = 0#16 := by
  simp [and_assoc]

/-- A command whose only check is RESERVED_FIELD and whose effect answers a register follows the rule of the accessors.
Neither asks for more of the engine than that it is not halted. -/
theorem accessorRule_of_answersRegister {s : State} {i : Instr} {stray : Bool} {otherFieldsZero : Prop}
    {register : Dim} (hchecks : checksOf s i = [(stray, .reservedField)])
    (hstray : stray = false ↔ otherFieldsZero)
    (heffect : effectOf s i = .next (s.respond statusOk register)) :
    AccessorRule s i otherFieldsZero register := by
  refine ⟨fun hrun hzero => ?completes, fun hrun hfield => exec_violation hrun ?field,
    fun hfault => exec_halted hfault i⟩
  case completes =>
    have hclear : firstViolation (checksOf s i) = none := by simp [hchecks, hstray.mpr hzero]
    rw [exec_clear hrun hclear, heffect, State.respond, responseWord_ok]
    rfl
  case field =>
    have htrue : stray = true := by rwa [← hstray, Bool.not_eq_false] at hfield
    simp [hchecks, htrue]

/-- Settles O21: each accessor is the same check and the answer of its own register. -/
theorem accessorsFollowTheirRules : Obligations.AccessorsFollowTheirRules := fun _ w a b c f =>
  have hstray := strayField_eq_false_iff w a b c f
  ⟨accessorRule_of_answersRegister rfl hstray rfl, accessorRule_of_answersRegister rfl hstray rfl,
    accessorRule_of_answersRegister rfl hstray rfl⟩

end Sys2Proof.Machine
end

section
/-! SUPPORT. FAULT over a step (60_exceptions.md R147 to R150): `fault_out` read from the cause, how a word latches a
fault, and the three things that a step can do to FAULT. -/

namespace Sys2Proof.Machine

open Sys2Proof.Safety

/-! ### fault_out (R150) -/

theorem State.faultOut_eq_one_iff (s : State) : s.faultOut = 1#1 ↔ s.faultCause ≠ .noFault := by
  rw [← s.halted_iff, State.faultOut]
  cases s.halted <;> decide

theorem State.faultOut_eq_zero_iff (s : State) : s.faultOut = 0#1 ↔ s.faultCause = .noFault := by
  rw [← s.halted_eq_false_iff, State.faultOut]
  cases s.halted <;> decide

/-! ### The causes of a command (R143) -/

/-- The checks of a command raise the causes of its row, in the row's order. -/
theorem map_snd_checksOf (s : State) (i : Instr) : (checksOf s i).map Prod.snd = raisable i := by
  cases i <;> rfl

/-- The code of a fault that a word calls for is one of those that commands latch (R141). -/
theorem code_mem_of_violationIn {s : State} {c : CmdWord} {cause : Cause}
    (h : violationIn s c = some cause) :
    cause.code ∈ [0x01#8, 0x02#8, 0x03#8, 0x05#8, 0x06#8, 0x07#8] := by
  obtain ⟨hfault, hinvalid, hcapacity⟩ := violationIn_is_command_cause h
  have hzero : cause.code ≠ 0x00#8 := Cause.code_eq_zero_iff.not.mpr hfault
  exact (List.mem_cons.mp (Cause.code_mem hinvalid hcapacity)).resolve_left hzero

/-! ### What a word and a step do to FAULT -/

/-- A word leaves FAULT alone, or takes a running engine to the fault that it calls for. -/
theorem runWord_fault_cases {s t : State} {c : CmdWord} (h : runWord c s = .next t) :
    (t.faultCause = s.faultCause ∧ t.faultInfo = s.faultInfo) ∨
    (∃ cause, s.faultCause = .noFault ∧ violationIn s c = some cause ∧ t = s.raiseFault cause c) := by
  rcases runWord_cases h with ⟨-, rfl⟩ | ⟨cause, hh, hv, rfl⟩ | ⟨i, -, -, -, he⟩
  · exact .inl ⟨rfl, rfl⟩
  · exact .inr ⟨cause, s.halted_eq_false_iff.mp hh, hv, rfl⟩
  · rcases effectOf_cases he with ⟨slot, v, buf, -, rfl⟩ | ⟨data, rfl⟩ <;> exact .inl ⟨rfl, rfl⟩

/-- A step leaves FAULT alone, latches the fault that a command calls for in a running engine, or is a reset. -/
theorem step_fault_cases {s t : State} (h : step s = .next t) :
    (t.faultCause = s.faultCause ∧ t.faultInfo = s.faultInfo) ∨
    (∃ c rest, s.pending = .command c :: rest ∧ s.faultCause = .noFault ∧
      violationIn s c = some t.faultCause ∧ t.faultInfo = c) ∨
    (∃ st rest, s.pending = .reset st :: rest ∧ t = (taking s rest).applyReset st) := by
  rcases step_cases s with ⟨-, e⟩ | ⟨c, rest, hp, e⟩ | ⟨st, rest, hp, e⟩ <;> rw [e] at h
  · cases h
    exact .inl ⟨rfl, rfl⟩
  · rcases runWord_fault_cases h with hkeep | ⟨cause, hrun, hv, rfl⟩
    · exact .inl hkeep
    · exact .inr (.inl ⟨c, rest, hp, hrun, hv, rfl⟩)
  · cases h
    exact .inr (.inr ⟨st, rest, hp, rfl⟩)

/-! ### The buffer of a new instance (R149) -/

theorem Memory.zeroed_read {len a : Nat} (h : a < len) : (Memory.zeroed len).read a = .ok 0x00#8 :=
  Memory.read_eq_ok h

/-- A reset that latches no fault builds the whole buffer of its straps. -/
theorem State.applyReset_buf_of_noFault {s : State} {st : Straps}
    (h : resetCause s.capBytes st = .noFault) : (s.applyReset st).buf = Memory.zeroed st.bufferLength := by
  rw [State.applyReset_buf, if_pos h]

end Sys2Proof.Machine
end

section
/-! Faults, the halted engine and the idle one (60_exceptions.md R143, R147 to R150, R155). -/

namespace Sys2Proof.Machine

open Sys2Proof.Safety

/-- Settles O23: a running engine answers, and the only cause it can latch is that of a check of the command. -/
theorem eachCommandRaisesOnlyItsCauses : Obligations.EachCommandRaisesOnlyItsCauses := by
  intro s i hs
  obtain ⟨t, h⟩ := runWord_answers hs.1 (encode i)
  rw [← exec_eq_runWord_encode] at h
  refine ⟨t, h, ?_⟩
  rcases exec_cases h with ⟨hh, -⟩ | ⟨cause, -, hv, rfl⟩ | ⟨-, -, he⟩
  · exact absurd hs.2 (s.halted_iff.mp hh)
  · have hmem := firstViolation_mem hv
    rw [map_snd_checksOf] at hmem
    exact .inr hmem
  · obtain ⟨-, -, hkeep, -⟩ := effectOf_response he
    exact .inl (hkeep.trans hs.2)

/-- Settles O29: the word that latched the fault is one that calls for it, so the step took the fault and did nothing
else. -/
theorem faultEntryRecordsTheCommand : Obligations.FaultEntryRecordsTheCommand := by
  intro s t c rest hrun hp h hfault
  rw [step_of_pending_command hp] at h
  rcases runWord_fault_cases h with ⟨hkeep, -⟩ | ⟨cause, -, hv, rfl⟩
  · exact absurd (hkeep.trans hrun) hfault
  · exact ⟨code_mem_of_violationIn hv,
      ⟨responseWord cause.code 0x0000#16, rfl, responseWord_status .., responseWord_data ..⟩,
      (State.halted_iff _).mpr hfault, (State.faultOut_eq_one_iff _).mpr hfault⟩

/-- Settles O30: the halted test comes before the word is looked at. -/
theorem haltedEngineAnswersFF0000 : Obligations.HaltedEngineAnswersFF0000 := by
  intro s c rest hfault hp
  have hhalted : (taking s rest).halted = true := (State.halted_iff _).mpr hfault
  exact ⟨_, (step_of_pending_command hp).trans (runWord_halted hhalted c), rfl, rfl⟩

/-- Settles O31: a halted engine takes no fault, so what changes FAULT is a reset; one that latches no fault builds a
buffer of zeros. -/
theorem onlyResetLeavesTheHaltedState : Obligations.OnlyResetLeavesTheHaltedState := by
  intro s t hfault h
  rcases step_fault_cases h with ⟨hcause, hinfo⟩ | ⟨-, -, -, hrun, -⟩ | ⟨st, rest, hp, rfl⟩
  · exact ⟨fun _ => ⟨hcause, hinfo⟩, fun ht => absurd (hcause.symm.trans ht) hfault⟩
  · exact absurd hrun hfault
  · refine ⟨fun hne => absurd hp (hne st rest), fun ht => ?_⟩
    rw [State.applyReset_buf_of_noFault ht]
    exact ⟨st, rest, hp, rfl, fun _ ha => Memory.zeroed_read ha⟩

/-- Settles O32: `fault_out` changes only where FAULT.CAUSE does, which is at a command's fault or at a reset. -/
theorem faultOutFollowsTheCause : Obligations.FaultOutFollowsTheCause := by
  intro s
  simp only [State.faultOut_eq_one_iff, State.faultOut_eq_zero_iff]
  refine ⟨Cause.code_eq_zero_iff.not.symm, Cause.code_eq_zero_iff.symm, fun t h => ?_⟩
  rcases step_fault_cases h with ⟨hcause, -⟩ | ⟨c, rest, hp, hrun, -, hinfo⟩ | ⟨st, rest, hp, rfl⟩
  · exact ⟨fun hrun ht => absurd (hcause.trans hrun) ht, fun hs ht => absurd (hcause.symm.trans ht) hs⟩
  · exact ⟨fun _ _ => .inl ⟨c, rest, hp, hinfo⟩, fun hs _ => absurd hrun hs⟩
  · refine ⟨fun _ ht => .inr ⟨st, rest, hp, ?_⟩, fun _ ht => ⟨st, rest, hp, ht⟩⟩
    rw [State.causeCode, State.applyReset_faultCause]
    rcases resetCause_cases (taking s rest).capBytes st with ⟨-, e⟩ | ⟨-, -, e⟩ | ⟨-, -, e⟩
    · exact .inl (congrArg Cause.code e)
    · exact .inr (congrArg Cause.code e)
    · exact absurd e ht

/-- Settles O7: with nothing presented the step has no input to take. -/
theorem idleEngineKeepsAllState : Obligations.IdleEngineKeepsAllState := by
  intro s hp
  rw [step, State.takeEvent_nil hp]

end Sys2Proof.Machine
end

section
/-! SUPPORT. The reset step (70_reset_and_hazards.md R170, R171): its equation, the cause that it latches for each
kind of straps, the buffer that it builds, and what a fresh buffer holds. -/

namespace Sys2Proof.Machine

open Sys2Proof.Safety

/-- The step takes a presented reset off the host's list and builds the new instance (R171). -/
theorem step_of_pending_reset {s : State} {st : Straps} {rest : List HostEvent}
    (h : s.pending = .reset st :: rest) : step s = .next ((taking s rest).applyReset st) := by
  rw [step, State.takeEvent_cons h]
  rfl

/-! ### The cause that reset latches (R171) -/

theorem widthSupported_iff (bits : BitVec 8) : widthSupported bits = true ↔
    bits.toNat = 4 ∨ bits.toNat = 8 ∨ bits.toNat = 16 := by
  simp [widthSupported, ← BitVec.toNat_inj, or_assoc]

/-- Straps are bad where a dimension is zero or the width is none of 4, 8 and 16, in numbers. -/
theorem Straps.valid_eq_false_iff (st : Straps) : st.valid = false ↔
    st.sizeX = 0#16 ∨ st.sizeY = 0#16 ∨ st.sizeZ = 0#16 ∨
      ¬(st.bits.toNat = 4 ∨ st.bits.toNat = 8 ∨ st.bits.toNat = 16) := by
  simp only [← widthSupported_iff, Straps.valid, Bool.and_eq_false_iff, bne_eq_false_iff_eq,
    or_assoc, Bool.not_eq_true]

section resetCause
variable {capBytes : Nat} {st : Straps}

theorem resetCause_of_invalid (h : st.valid = false) : resetCause capBytes st = .cfgInvalid := by
  rw [resetCause, h]
  rfl

theorem resetCause_of_exceeds (h : st.valid = true) (hover : capBytes < st.bufferLength) :
    resetCause capBytes st = .cfgCapacity := by
  rw [resetCause, h, if_pos hover]
  rfl

theorem resetCause_of_fits (h : st.valid = true) (hfits : st.bufferLength ≤ capBytes) :
    resetCause capBytes st = .noFault := by
  rw [resetCause, h, if_neg hfits.not_gt]
  rfl

/-- Bad straps, or a length above the capacity, latch one of the two configuration faults (R173). -/
theorem resetCause_of_bad (h : st.valid = false ∨ capBytes < st.bufferLength) :
    resetCause capBytes st = if st.valid = false then .cfgInvalid else .cfgCapacity := by
  split
  case isTrue hinvalid => exact resetCause_of_invalid hinvalid
  case isFalse hvalid =>
    exact resetCause_of_exceeds (eq_true_of_ne_false hvalid) (h.resolve_left hvalid)

theorem resetCause_ne_noFault_of_bad (h : st.valid = false ∨ capBytes < st.bufferLength) :
    resetCause capBytes st ≠ .noFault := by
  rw [resetCause_of_bad h]
  split <;> decide

end resetCause

/-! ### The new instance -/

/-- A reset that latches a configuration fault builds an empty buffer (R173). -/
theorem State.applyReset_len_of_fault {s : State} {st : Straps}
    (h : resetCause s.capBytes st ≠ .noFault) : (s.applyReset st).buf.len = 0 := by
  rw [State.applyReset_buf, if_neg h, Memory.zeroed_len]

/-- Of the old state a reset keeps the capacity and what the host holds, and nothing else (R170). -/
theorem State.applyReset_congr {s s' : State} (st : Straps) (hcap : s.capBytes = s'.capBytes)
    (hpending : s.pending = s'.pending) (hresponses : s.responses = s'.responses) :
    s.applyReset st = s'.applyReset st := by
  simp only [State.applyReset, hcap, hpending, hresponses]

/-- The engine's own state after a reset depends on the straps and the capacity alone (R170). -/
theorem sameEngine_applyReset {s s' : State} (st : Straps) (hcap : s.capBytes = s'.capBytes) :
    SameEngine (s.applyReset st) (s'.applyReset st) := by
  simp only [SameEngine, State.applyReset_sizeX, State.applyReset_sizeY, State.applyReset_sizeZ,
    State.applyReset_bits, State.applyReset_buf, State.applyReset_faultCause,
    State.applyReset_faultInfo, hcap, and_self]

/-- With straps that are valid and fit, the new instance runs at once (R172). -/
theorem running_applyReset {s : State} {st : Straps} (hcap : 1 ≤ s.capBytes)
    (hvalid : st.valid = true) (hfits : st.bufferLength ≤ s.capBytes) : Running (s.applyReset st) :=
  ⟨inv_applyReset hcap st, resetCause_of_fits hvalid hfits⟩

/-! ### A fresh buffer (R172) -/

/-- Both nibbles of a zero byte are zero. -/
theorem nibbleOf_zero (slot : Nat) : nibbleOf slot 0x00#8 = 0#4 := by
  unfold nibbleOf
  split <;> rfl

/-- Every slot of a zeroed buffer holds 0, at each width. -/
theorem slotValue_zeroed (len : Nat) (bits : BitVec 8) (slot : Nat) :
    slotValue (Memory.zeroed len) bits slot = 0x0000#16 := by
  simp only [slotValue, Memory.zeroed_lookup, nibbleOf_zero]
  split
  · rfl
  · split <;> rfl

end Sys2Proof.Machine
end

section
/-! Reset (70_reset_and_hazards.md R170 to R173) and progress (R181): what a reset builds, and that every finite list
of inputs runs to its end with one response for each command. -/

namespace Sys2Proof.Machine

open Sys2Proof.Safety

/-! ### Progress and runs (R181, 30_encoding.md R63) -/

/-- Settles O42: a word is answered from every state of the invariant, an idle step and a reset from any state. -/
theorem everyStepAnswers : Obligations.EveryStepAnswers := fun _ => step_answers

/-- The inputs of a list are owed the responses of the first and of the rest. -/
theorem commandsIn_cons (e : HostEvent) (rest : List HostEvent) :
    commandsIn (e :: rest) = commandsIn [e] + commandsIn rest := by
  cases e with
  | command c => exact Nat.add_comm _ _
  | reset st => exact (Nat.zero_add _).symm

/-- A step takes one input and sends the responses that it is owed: one for a command, none for a reset. -/
theorem step_takes_event {s t : State} {e : HostEvent} {rest : List HostEvent}
    (hp : s.pending = e :: rest) (h : step s = .next t) :
    t.pending = rest ∧ ∃ rs, t.responses = s.responses ++ rs ∧ rs.length = commandsIn [e] := by
  cases e with
  | command c =>
    rw [step_of_pending_command hp] at h
    obtain ⟨status, data, hresp, -, -⟩ := runWord_response h
    exact ⟨runWord_keeps_pending h, [responseWord status data], hresp, rfl⟩
  | reset st =>
    rw [step_of_pending_reset hp] at h
    cases h
    exact ⟨rfl, [], (List.append_nil _).symm, rfl⟩

/-- Settles O43, by induction on the list of inputs: each step answers, keeps the invariant and takes one input with
its responses. -/
theorem everyRunEndsWithAllAnswered : Obligations.EveryRunEndsWithAllAnswered := by
  intro s hs
  induction hp : s.pending generalizing s with
  | nil => exact ⟨s, rfl, hs, hp, [], (List.append_nil _).symm, rfl⟩
  | cons e rest ih =>
    obtain ⟨s', hstep⟩ := step_answers hs
    have hs' : Inv s' := stepKeepsTheInvariant s s' hs hstep
    obtain ⟨hp', rs, hrs, hlen⟩ := step_takes_event hp hstep
    obtain ⟨t, hrun, ht, hdone, rs', hrs', hlen'⟩ := ih s' hs' hp'
    refine ⟨t, (run_succ_of_step (M := Sys2Proof.core) _ hstep).trans hrun, ht, hdone, rs ++ rs', ?_, ?_⟩
    · rw [hrs', hrs, List.append_assoc]
    · rw [List.length_append, hlen, hlen', ← commandsIn_cons]

/-! ### Reset -/

/-- Settles O33: the frame holds by the reset step's equation, and the cause decides the buffer. -/
theorem resetStepBuildsTheInstance : Obligations.ResetStepBuildsTheInstance := by
  intro s st rest hp
  refine ⟨_, step_of_pending_reset hp, rfl, rfl, rfl, rfl, rfl, rfl, rfl, rfl, rfl, ?_⟩
  rw [← Straps.valid_eq_false_iff, Bool.not_eq_false]
  refine ⟨fun hinvalid => ?invalid, fun hvalid => ⟨fun hover => ?exceeds, fun hfits => ?fits⟩⟩
  case invalid =>
    exact ⟨congrArg Cause.code (resetCause_of_invalid hinvalid),
      State.applyReset_len_of_fault (resetCause_ne_noFault_of_bad (.inl hinvalid))⟩
  case exceeds =>
    exact ⟨congrArg Cause.code (resetCause_of_exceeds hvalid hover),
      State.applyReset_len_of_fault (resetCause_ne_noFault_of_bad (.inr hover))⟩
  case fits =>
    have hcause : resetCause (taking s rest).capBytes st = .noFault := resetCause_of_fits hvalid hfits
    rw [State.applyReset_buf_of_noFault hcause]
    exact ⟨congrArg Cause.code hcause, rfl, fun _ ha => Memory.zeroed_read ha⟩

/-- Settles O34: the engine runs, so a read of a slot and a GET answer the slot's value, which is 0 in a zeroed
buffer. -/
theorem freshInstanceReadsZero : Obligations.FreshInstanceReadsZero := by
  intro s t st rest hcap hp hvalid hfits h
  rw [step_of_pending_reset hp] at h
  cases h
  have hrun : Running ((taking s rest).applyReset st) := running_applyReset hcap hvalid hfits
  have hbuf := State.applyReset_buf_of_noFault hrun.2
  have hzero (slot : Nat) : slotValue ((taking s rest).applyReset st).buf st.bits slot = 0x0000#16 := by
    rw [hbuf, slotValue_zeroed]
  refine ⟨hrun, rfl, rfl, rfl, rfl, congrArg Memory.len hbuf, congrArg Cause.code hrun.2, rfl,
    (State.faultOut_eq_zero_iff _).mpr hrun.2, fun a ha => ?bytes, fun slot hslot => ?slots,
    fun x y z hx hy hz => ?get⟩
  case bytes => rw [hbuf, Memory.zeroed_read ha]
  case slots => rw [codecRead_of_running hrun hslot, State.applyReset_bits, hzero]
  case get =>
    rw [exec_get_running hrun ((coordOutOfRange_eq_false_iff _ x y z).mpr ⟨hx, hy, hz⟩),
      State.applyReset_bits, hzero]
    rfl

/-- Settles O35: the reset latches a configuration fault, so the buffer is empty and the engine is halted. -/
theorem badStrapsLeaveTheEngineHalted : Obligations.BadStrapsLeaveTheEngineHalted := by
  intro s t st rest hp h hbad
  rw [step_of_pending_reset hp] at h
  cases h
  have hfault : ((taking s rest).applyReset st).faultCause ≠ .noFault :=
    resetCause_ne_noFault_of_bad hbad
  exact ⟨rfl, rfl, rfl, rfl, State.applyReset_len_of_fault hfault, rfl,
    (State.faultOut_eq_one_iff _).mpr hfault, resetCause_of_bad hbad,
    runWord_halted ((State.halted_iff _).mpr hfault)⟩

/-- Settles O36: a reset builds the engine from the straps and the capacity. -/
theorem resetForgetsTheOldInstance : Obligations.ResetForgetsTheOldInstance := by
  intro s s' t t' st rest rest' hcap hp hp' h h'
  rw [step_of_pending_reset hp] at h
  rw [step_of_pending_reset hp'] at h'
  cases h
  cases h'
  exact sameEngine_applyReset st hcap

/-- Settles O37: a reset forgets the old state, so it may as well start from `State.reset` itself. -/
theorem resetStateIsAResetStep : Obligations.ResetStateIsAResetStep := by
  intro s hcap hresponses hp
  rw [step_of_pending_reset hp]
  have hreset := State.applyReset_congr (s := taking s []) (s' := State.reset)
    { sizeX := 16#16, sizeY := 256#16, sizeZ := 16#16, bits := 8#8 } hcap rfl hresponses
  exact congrArg Host.Outcome.next (hreset.trans State.reset_eq_applyReset)

end Sys2Proof.Machine
end
